-- ==== Sys2Proof/Word.lean ====
section
/-! DEFINITION. The words of the gobm stack ALU and the integer readings of them that the spec's pseudocode uses (00_scope.md R4, R8, R9, R10). -/

namespace Sys2Proof

/-- A stack element or an operand: a 64-bit word, `XLEN = 64` (00_scope.md R4). -/
abbrev Word := BitVec 64

/-- An instruction word of `IW = 72` bits (30_encoding.md R58). -/
abbrev InstrWord := BitVec 72

/-- A byte of the interchange image or of the dump text; the hardware itself has no bytes (20_memory.md R42). -/
abbrev Byte := BitVec 8

/-- A program: "an ordered, finite, immutable sequence" of instruction words (00_scope.md R7). -/
abbrev Program := List InstrWord

/-- `sint(w)`: the two's-complement integer a word stands for (00_scope.md R9, decision D5). -/
def sint (w : Word) : Int := w.toInt

/-- `wrap64(n)`: the one word congruent to `n` modulo `2^64` (00_scope.md R9). -/
def wrap64 (n : Int) : Word := BitVec.ofInt 64 n

/-- `tdiv(n, d)`: the quotient truncated toward zero (00_scope.md R10). -/
def tdiv (n d : Int) : Int := Int.tdiv n d

/-- `INT64_MIN = -2^63` as a word (00_scope.md R9). -/
def int64Min : Word := 0x8000000000000000#64

/-- `INT64_MAX = 2^63 - 1` as a word (00_scope.md R9). -/
def int64Max : Word := 0x7FFFFFFFFFFFFFFF#64

/-- The word of `-1`, all 64 bits one (00_scope.md R9). -/
def minusOne : Word := 0xFFFFFFFFFFFFFFFF#64

end Sys2Proof
end

