-- ==== Sys2Proof/Config.lean ====
section
/-! DEFINITION. What an implementation fixes: the two arithmetic parameters and the free values, which nothing in Lean can evaluate. The widths and the capacity are constants of this hardware, written as numerals where they stand: XLEN = 64 and CAP = 1024 (00_scope.md R4); KINDW = 8, IW = 72, SZW = 11, SAW = 10, ERRW = 3 and IPW = 64, its default (00_scope.md R5, R6, decisions D2, D7, D8, D10, D13; log entry 3). -/

namespace Sys2Proof.Config

/-- How an exact sum, difference or product becomes a 64-bit result: the named configuration of the three functions,
with the spec's default, wrap-around modulo `2^64` (41_arithmetic.md R82, decision D5; log entry 7). -/
def resultWord (n : Int) : Word := wrap64 n

/-- `div_min_by_minus1`: the result of `INT64_MIN / -1`, with the spec's default (41_arithmetic.md R84, decision D6;
log entry 6). A claim that rests on this value names this field. -/
def divMinByMinus1 : Word := 0x8000000000000000#64

/-- FREE VALUE (log entry 4). The word stack slot `i` holds at power-up, before anything wrote it: "unspecified"
(10_state.md R33, decision D14; 20_memory.md R50). -/
opaque ramPowerUp : Nat → Word

/-- FREE VALUE (log entry 12). What `dbg_val` shows in a clock period in which a Step happens: "any value, to be
ignored" (60_exceptions.md R124, decision D19). Its arguments are the number of host inputs still pending, `ip` and
`dbg_idx`, which together never repeat in such periods of one run. -/
opaque dbgValDuringStep : Nat → Nat → BitVec 10 → Word

/-- FREE VALUE (log entry 13). What `imem_data` carries while `imem_oob = 1`: "of any value, which is not used"
(43_fetch_execute.md R100). -/
opaque imemDataOutOfRange : Nat → Nat → InstrWord

end Sys2Proof.Config
end

