-- ==== Sys2Proof/Syntax.lean ====
section
/-! DEFINITION. The instructions: one constructor for each of the eight rows of the opcode table. -/

namespace Sys2Proof

/-- The eight classes of instruction words, seven declared kinds and the unknown kinds (30_encoding.md R60, R61). -/
inductive Kind where
  | push
  | add
  | sub
  | mul
  | div
  | jump
  | halt
  | unknown
deriving DecidableEq, Repr

/-- An instruction: a kind "paired with an operand field", whether or not the kind uses it (30_encoding.md R59, R62,
R63; log entry 16 on why the ignored operands are kept). -/
inductive Instr where
  /-- `Push n` (40_push.md R72). -/
  | push (operand : Word)
  /-- `Add`, operand ignored (41_arithmetic.md R77). -/
  | add (operand : Word)
  /-- `Sub`, operand ignored (41_arithmetic.md R78). -/
  | sub (operand : Word)
  /-- `Mul`, operand ignored (41_arithmetic.md R79). -/
  | mul (operand : Word)
  /-- `Div`, operand ignored (41_arithmetic.md R80). -/
  | div (operand : Word)
  /-- `Jump n`, declared and not implemented (42_halt_jump_illegal.md R92). -/
  | jump (operand : Word)
  /-- `Halt`, operand ignored (42_halt_jump_illegal.md R90). -/
  | halt (operand : Word)
  /-- A word of an unknown kind, 0x07 to 0xFF (42_halt_jump_illegal.md R94). -/
  | unknown (kind : BitVec 8) (operand : Word)
deriving DecidableEq, Repr

/-- The class an instruction belongs to (30_encoding.md R60). -/
def Instr.kind : Instr → Kind
  | .push _ => .push
  | .add _ => .add
  | .sub _ => .sub
  | .mul _ => .mul
  | .div _ => .div
  | .jump _ => .jump
  | .halt _ => .halt
  | .unknown _ _ => .unknown

/-- The operand field every instruction carries (30_encoding.md R59). -/
def Instr.operand : Instr → Word
  | .push n => n
  | .add n => n
  | .sub n => n
  | .mul n => n
  | .div n => n
  | .jump n => n
  | .halt n => n
  | .unknown _ n => n

end Sys2Proof
end

