-- ==== Sys2Proof/WellFormed.lean ====
section
/-! DEFINITION. When an instruction and a program are well formed. -/

namespace Sys2Proof

/-- Every operand value is legal (30_encoding.md R62, R63), so the one check is that an unknown kind is unknown:
0x07 to 0xFF (30_encoding.md R64). -/
def Instr.wf : Instr → Bool
  | .push _ => true
  | .add _ => true
  | .sub _ => true
  | .mul _ => true
  | .div _ => true
  | .jump _ => true
  | .halt _ => true
  | .unknown kind _ => decide (7 ≤ kind.toNat)

/-- A program's length fits the instruction pointer, `PLEN < 2^IPW` (00_scope.md R7, decision D10). The words
themselves are not checked: the core does not "validate programs" (20_memory.md R41). -/
def Program.fits (p : Program) : Bool := decide (p.length < 2 ^ 64)

end Sys2Proof
end

