-- ==== Sys2Proof/Decode.lean ====
section
/-! DEFINITION. The decoder (total on every word), the encoder, the match-and-mask table, the interchange image and
the words of the assembler's canonical encoding (30_encoding.md R58 to R67, 20_memory.md R43). -/

namespace Sys2Proof

/-- `w[71:64]` (30_encoding.md R59). -/
def kindField (w : InstrWord) : BitVec 8 := w.extractLsb' 64 8

/-- `w[63:0]` (30_encoding.md R59). -/
def operandField (w : InstrWord) : Word := w.extractLsb' 0 64

/-- The word `{kind, operand}` (30_encoding.md R59). -/
def packWord (kind : BitVec 8) (operand : Word) : InstrWord := kind ++ operand

/-- The instruction a word stands for: "The `kind` field alone selects the instruction" (30_encoding.md R60). Every
word decodes, to exactly one class (R61). -/
def decode (w : InstrWord) : Instr :=
  match (kindField w).toNat with
  | 0 => .push (operandField w)
  | 1 => .add (operandField w)
  | 2 => .sub (operandField w)
  | 3 => .mul (operandField w)
  | 4 => .div (operandField w)
  | 5 => .jump (operandField w)
  | 6 => .halt (operandField w)
  | _ => .unknown (kindField w) (operandField w)

/-- The kind number of an instruction (30_encoding.md R60, decision D3). -/
def Instr.kindCode : Instr → BitVec 8
  | .push _ => 0x00#8
  | .add _ => 0x01#8
  | .sub _ => 0x02#8
  | .mul _ => 0x03#8
  | .div _ => 0x04#8
  | .jump _ => 0x05#8
  | .halt _ => 0x06#8
  | .unknown kind _ => kind

/-- The word of an instruction, with the operand it carries (30_encoding.md R59, R60). -/
def encode (i : Instr) : InstrWord := packWord i.kindCode i.operand

/-- The instruction with the operand field that its notation gives it: zero for the mnemonics that stand alone
(30_encoding.md R67, decision D4). -/
def Instr.canonical : Instr → Instr
  | .push n => .push n
  | .add _ => .add 0#64
  | .sub _ => .sub 0#64
  | .mul _ => .mul 0#64
  | .div _ => .div 0#64
  | .jump n => .jump n
  | .halt _ => .halt 0#64
  | .unknown kind n => .unknown kind n

/-- The canonical word of an instruction's notation (30_encoding.md R67). -/
def canonicalWord (i : Instr) : InstrWord := encode i.canonical

/-- A row of the opcode table: a class, its `match` and its `mask` (30_encoding.md R61). -/
structure OpcodeRow where
  kind : Kind
  pattern : InstrWord
  mask : InstrWord
deriving DecidableEq, Repr

/-- The eight rows in the order in which they are tried, the unknown kinds last (30_encoding.md R61). -/
def opcodeRows : List OpcodeRow :=
  [{ kind := .push, pattern := 0x000000000000000000#72, mask := 0xFF0000000000000000#72 },
   { kind := .add, pattern := 0x010000000000000000#72, mask := 0xFF0000000000000000#72 },
   { kind := .sub, pattern := 0x020000000000000000#72, mask := 0xFF0000000000000000#72 },
   { kind := .mul, pattern := 0x030000000000000000#72, mask := 0xFF0000000000000000#72 },
   { kind := .div, pattern := 0x040000000000000000#72, mask := 0xFF0000000000000000#72 },
   { kind := .jump, pattern := 0x050000000000000000#72, mask := 0xFF0000000000000000#72 },
   { kind := .halt, pattern := 0x060000000000000000#72, mask := 0xFF0000000000000000#72 },
   { kind := .unknown, pattern := 0x000000000000000000#72, mask := 0x000000000000000000#72 }]

/-- "a row selects an instruction by `(w AND mask) = match`" (30_encoding.md R61). -/
def OpcodeRow.selects (r : OpcodeRow) (w : InstrWord) : Bool := decide (w &&& r.mask = r.pattern)

/-- The 9 bytes of a record, big-endian: the kind first, then the operand from its most significant byte
(20_memory.md R43, decision D21). -/
def wordBytes (w : InstrWord) : List Byte :=
  [w.extractLsb' 64 8, w.extractLsb' 56 8, w.extractLsb' 48 8, w.extractLsb' 40 8, w.extractLsb' 32 8,
   w.extractLsb' 24 8, w.extractLsb' 16 8, w.extractLsb' 8 8, w.extractLsb' 0 8]

/-- The image of a program: record `i` is instruction word `i` (20_memory.md R43). -/
def programImage : Program → List Byte
  | [] => []
  | w :: p => wordBytes w ++ programImage p

/-- Why a list of bytes is no image. -/
inductive ImageError where
  /-- The bytes end inside a record of 9 (raised by `programOfImage`; safe: no program is read). -/
  | truncatedRecord
deriving DecidableEq, Repr

/-- The program an image stands for, total on any bytes: it rejects, by name, an image that is no whole number of
records (20_memory.md R43). -/
def programOfImage : List Byte → Except ImageError Program
  | [] => .ok []
  | b0 :: b1 :: b2 :: b3 :: b4 :: b5 :: b6 :: b7 :: b8 :: rest =>
    match programOfImage rest with
    | .ok p => .ok ((b0 ++ b1 ++ b2 ++ b3 ++ b4 ++ b5 ++ b6 ++ b7 ++ b8) :: p)
    | .error e => .error e
  | _ => .error .truncatedRecord

/-- The 72-bit word of a table word of `nbits` bits, the bits above them zero. -/
def tableWord (nbits w : Nat) : InstrWord := BitVec.ofNat 72 (w % 2 ^ nbits)

/-- The decoder on a word numbered as the opcode table numbers it: one word of 72 bits, bit 0 its least significant
(00_scope.md R8). A word wider than any instruction is refused. -/
def decodeTableWord (nbits w : Nat) : Option Instr :=
  if nbits ≤ 72 then some (decode (tableWord nbits w)) else none

end Sys2Proof
end

