-- ==== Sys2Proof/Machine/State.lean ====
section
/-! DEFINITION. The state of the machine as plain data, the reasons it can stop, the causes it can record, and the state after reset (10_state.md R15 to R34). -/

namespace Sys2Proof.Machine

/-- Why a meaning stops with a fault of the MODEL. The machine's own five causes are no such stops: they are recorded
in `faulted` and `err`, and the machine goes on to a next state (60_exceptions.md R115). -/
inductive Fault where
  /-- Raised by the meanings of Push, Add, Sub, Mul and Div in a state whose `size` counts more slots than the RAM has
  (`size > 1024`): the slot they would reach does not exist (20_memory.md R40, R48). SAFE: such states are outside the
  admitted state space (10_state.md R34), and `step` refuses them first. Log entry 9. -/
  | noSuchSlot
deriving DecidableEq, Repr

/-- Why the model gives no meaning. -/
inductive Refusal where
  /-- Raised by an arm of `exec` whose instruction has no meaning yet; no arm of this model is such an arm. SAFE. -/
  | notModelled (mnemonic : String)
  /-- Raised by the sequencer when a step is due from a state outside the admitted state space: "this spec gives such a
  state no meaning; a model refuses to run from it" (10_state.md R34, 70_reset_and_hazards.md R135). SAFE. Log entry 8. -/
  | notAdmitted
  /-- Raised by the sequencer when the host changes the program during a run, between the end of reset and the run's
  end: the host's duty is broken and "the spec says nothing" (93_implementation_defined.md U12, 70_reset_and_hazards.md
  R137). SAFE. Log entry 10. -/
  | programChanged
  /-- Raised by the reset edge when the host supplies a program of `2^IPW` words or more, which the spec's requirement
  `PLEN < 2^IPW` shuts out (00_scope.md R7). SAFE. Log entry 11. -/
  | programTooLong
deriving DecidableEq, Repr

/-- The closed error taxonomy of Execute, "with no associated data" (60_exceptions.md R109). -/
inductive ErrorKind where
  | stackOverflow
  | stackUnderflow
  | divideByZero
  | illegalInstruction
deriving DecidableEq, Repr

/-- The causes of a fault: Execute's four, and the sequencer's own (60_exceptions.md R110, R113). -/
inductive Cause where
  | execute (e : ErrorKind)
  | fetchOutOfRange
deriving DecidableEq, Repr

/-- The control states, read off the two flags (10_state.md R25). -/
inductive ControlState where
  | running
  | halted
  | faulted
deriving DecidableEq, Repr

/-- What the host drives onto the input pins for one clock edge (10_state.md R31): `rst`, `step_en`, and, where the
host changes the program in that clock period, the new program (70_reset_and_hazards.md R133, R137). -/
structure HostInputs where
  rst : Bool
  stepEn : Bool
  newProg : Option Program
deriving DecidableEq, Repr

/-- The levels at which the host leaves `rst` and `step_en` once it makes no further move: it may "hold `step_en` low
for ever" (70_reset_and_hazards.md R142), and may keep `rst` at 1 (R132). -/
structure IdlePins where
  rst : Bool
  stepEn : Bool
deriving DecidableEq, Repr

/-- The stack RAM: the words written since power-up, as (slot index, word) pairs with indices strictly rising. A slot
that is not listed holds its power-up word (20_memory.md R40, R50; log entries 4 and 5). -/
abbrev Memory := List (Nat × Word)

/-- The whole state: the six pieces the spec names (10_state.md section 1), and four fields that hold the host's side of
the step relation. -/
structure State where
  /-- `stack[0..1023]`, slots of 64 bits (10_state.md R15, R16). -/
  stack : Memory
  /-- The stack pointer, a count of live elements, 11 bits (10_state.md R17). -/
  size : BitVec 11
  /-- The instruction pointer, an index of instruction words (10_state.md R19). -/
  ip : BitVec 64
  /-- "boolean, monotonic false→true" (10_state.md R21). -/
  halted : Bool
  /-- The Faulted state (10_state.md R22). -/
  faulted : Bool
  /-- The cause of the fault, 3 bits (10_state.md R23). -/
  err : BitVec 3
  /-- The parameter `prog` of the step relation (00_scope.md R7): the program of the run. Log entry 1. -/
  prog : Program
  /-- What the host has put into the program memory since the run ended, for the run after the next reset; `none` while
  the memory holds the run's program (70_reset_and_hazards.md R136, R137). Log entry 10. -/
  nextProg : Option Program
  /-- The host's moves still to come, one for each clock edge, the next one first. Log entry 2. -/
  inputs : List HostInputs
  /-- The levels of `rst` and `step_en` from the first edge for which no move is left. Log entry 2. -/
  idle : IdlePins
deriving DecidableEq, Repr

/-- The machine right after reset (10_state.md R33): the registers at the spec's values, the RAM with nothing written
since power-up, no program supplied, no host move pending, and the host stepping at every edge. -/
def State.reset : State where
  stack := []
  size := 0#11
  ip := 0#64
  halted := false
  faulted := false
  err := 0#3
  prog := []
  nextProg := none
  inputs := []
  idle := { rst := false, stepEn := true }

/-- The result of Execute: "either `ok(m')` or `error(e)`" (43_fetch_execute.md R97). -/
inductive Executed where
  | ok (m : State)
  | error (e : ErrorKind)
deriving DecidableEq, Repr

/-- The values on the output ports in one clock period (10_state.md R31). -/
structure Outputs where
  imemAddr : BitVec 64
  haltedO : Bool
  faultedO : Bool
  errO : BitVec 3
  sizeO : BitVec 11
  ipO : BitVec 64
  dbgVal : Word
  dbgLive : Bool
deriving DecidableEq, Repr

/-- The result of a run that has ended (43_fetch_execute.md R107): the live stack and the five registers. -/
structure RunResult where
  liveStack : List Word
  size : BitVec 11
  ip : BitVec 64
  halted : Bool
  faulted : Bool
  err : BitVec 3
deriving DecidableEq, Repr

end Sys2Proof.Machine
end

