-- ==== Sys2Proof/Machine/Flags.lean ====
section
/-! DEFINITION. The status registers: cause codes, the control state read off the flags, the checks on `size` and on the divisor that raise the causes, and the admitted state space. The machine has no arithmetic flag (10_state.md R24). -/

namespace Sys2Proof.Machine

/-- The number of an error kind (60_exceptions.md R110, decision D8). -/
def ErrorKind.code : ErrorKind → BitVec 3
  | .stackOverflow => 1#3
  | .stackUnderflow => 2#3
  | .divideByZero => 3#3
  | .illegalInstruction => 4#3

/-- `code(e)`, as held in `err` (60_exceptions.md R110, decision D8). -/
def Cause.code : Cause → BitVec 3
  | .execute e => e.code
  | .fetchOutOfRange => 5#3

/-- The control state; both flags set is outside the admitted state space (10_state.md R25). -/
def State.control (s : State) : Option ControlState :=
  match s.halted, s.faulted with
  | false, false => some .running
  | true, false => some .halted
  | false, true => some .faulted
  | true, true => none

/-- Halted or Faulted: the machine does nothing but wait for reset (43_fetch_execute.md R105). -/
def State.terminal (s : State) : Bool := s.halted || s.faulted

/-- The check of Push: `size = 1024` (40_push.md R72). -/
def State.stackFull (s : State) : Bool := decide (s.size.toNat = 1024)

/-- The check of Add, Sub, Mul and Div: `size < 2` (41_arithmetic.md R76). -/
def State.stackShort (s : State) : Bool := decide (s.size.toNat < 2)

/-- The second check of Div, on all 64 bits (41_arithmetic.md R85). -/
def divisorIsZero (b : Word) : Bool := decide (b = 0#64)

/-- The admitted states (10_state.md R34), with the bound on the program's length that the model's parameter owes
(00_scope.md R7). -/
def State.admitted (s : State) : Bool :=
  decide (s.size.toNat ≤ 1024) && decide (s.ip.toNat ≤ s.prog.length) && decide (s.err.toNat ≤ 5) &&
    (decide (s.err = 0#3) == !s.faulted) && !(s.halted && s.faulted) && s.prog.fits

end Sys2Proof.Machine
end

