-- ==== Sys2Proof/Machine/Ops.lean ====
section
/-! DEFINITION. The operations every step is made of: the stack RAM, the write of the instruction pointer, the program port, the host's pins, taking a fault, and reset, which is the only way out of a fault. -/

namespace Sys2Proof.Machine

/-! ### The stack RAM -/

/-- The word written to slot `i` since power-up, if any. -/
def Memory.find? : Memory → Nat → Option Word
  | [], _ => none
  | (j, w) :: m, i => if i = j then some w else Memory.find? m i

/-- What a slot that nothing has written since power-up reads as: a free value (10_state.md R33, 20_memory.md R50; log
entry 4). -/
def Memory.unlisted (i : Nat) : Word := Config.ramPowerUp i

/-- The physical word of slot `i` (10_state.md R15, R16). -/
def Memory.read (m : Memory) (i : Nat) : Word := (Memory.find? m i).getD (Memory.unlisted i)

/-- The RAM after a write of `v` to slot `i`, in canonical form. -/
def Memory.write : Memory → Nat → Word → Memory
  | [], i, v => [(i, v)]
  | (j, w) :: m, i, v =>
    if i < j then (i, v) :: (j, w) :: m
    else if i = j then (i, v) :: m
    else (j, w) :: Memory.write m i v

/-- The canonical form: indices strictly rising, each a slot the RAM has (20_memory.md R40). -/
abbrev Memory.wf (m : Memory) : Prop :=
  List.Pairwise (fun c d => c.1 < d.1) m ∧ ∀ c ∈ m, c.1 < 1024

/-- `stack[i]` (00_scope.md R10). -/
def State.slot (s : State) (i : Nat) : Word := Memory.read s.stack i

/-- `stack[i] <- v` together with `size <- n`, which take effect at once (20_memory.md R51). -/
def State.writeStack (s : State) (i : Nat) (v : Word) (n : BitVec 11) : State :=
  { s with stack := Memory.write s.stack i v, size := n }

/-- A meaning that reaches the RAM, in a state whose `size` counts slots that exist; otherwise the model's fault
(20_memory.md R40, R48; log entry 9). -/
def withSlots (s : State) (o : Host.Outcome State Fault Refusal) : Host.Outcome State Fault Refusal :=
  if s.size.toNat ≤ 1024 then o else .fault .noSuchSlot

/-! ### The program port -/

/-- `imem_addr`, always equal to `ip` (10_state.md R31). -/
def State.imemAddr (s : State) : BitVec 64 := s.ip

/-- `imem_oob`: 1 when `imem_addr >= PLEN` (43_fetch_execute.md R100). -/
def State.imemOob (s : State) : Bool := decide (s.prog.length ≤ s.ip.toNat)

/-- `imem_data`: `prog[ip]` when there is such a word (43_fetch_execute.md R100). -/
def State.imemData (s : State) : InstrWord :=
  (s.prog[s.ip.toNat]?).getD (Config.imemDataOutOfRange s.inputs.length s.ip.toNat)

/-! ### The host's pins -/

/-- The pins of an edge at which a Running machine steps. -/
def HostInputs.free : HostInputs where
  rst := false
  stepEn := true
  newProg := none

/-- The pins at these levels, with no change of the program. -/
def IdlePins.toInputs (l : IdlePins) : HostInputs where
  rst := l.rst
  stepEn := l.stepEn
  newProg := none

/-- The pins at the next clock edge: the host's next move, or the levels it left (log entry 2). -/
def State.pins (s : State) : HostInputs := s.inputs.headD s.idle.toInputs

/-- The state with the pins of this clock edge used up; no piece of the machine itself changes. -/
def State.tick (s : State) : State := { s with inputs := s.inputs.tail }

/-! ### The end of an instruction -/

/-- `ip <- ip + 1` (43_fetch_execute.md R102). -/
def State.advanceIp (s : State) : State := { s with ip := s.ip + 1#64 }

/-- Taking a fault: `faulted` and `err` are written and nothing else; no register is saved, and control goes nowhere
(60_exceptions.md R115, decision D7). -/
def State.takeFault (c : Cause) (s : State) : State := { s with faulted := true, err := c.code }

/-- What the sequencer does with the result of Execute on `s`: on success it advances `ip`, on failure it takes the
fault from the state before the instruction (43_fetch_execute.md R101, R102, R104). -/
def retire (s : State) : Executed → Host.Outcome State Fault Refusal
  | .ok m => .next m.advanceIp
  | .error e => .next (s.takeFault (.execute e))

/-! ### Reset, the only way out of Halted and Faulted (60_exceptions.md R120) -/

/-- `ResetState(m)`: the registers are cleared and the RAM is not written (70_reset_and_hazards.md R131, R133). -/
def State.clear (s : State) : State :=
  { s with size := 0#11, ip := 0#64, halted := false, faulted := false, err := 0#3 }

/-- The host puts a program into the program memory of a machine that does not run: it is the program of the next run,
and "no piece of state changes" (43_fetch_execute.md R105; log entry 10). -/
def State.supplied (newProg : Option Program) (s : State) : State :=
  { s with nextProg := newProg.or s.nextProg }

/-- A clock edge with `rst = 1`: reset, and the program memory's content is the program of the new run, changed in that
period or since the last run ended, or the same as before (70_reset_and_hazards.md R131, R133, R136; log entries 10
and 11). -/
def resetEdge (newProg : Option Program) (s : State) : Host.Outcome State Fault Refusal :=
  match newProg.or s.nextProg with
  | none => .next s.clear
  | some p => if p.fits then .next { s.clear with prog := p, nextProg := none } else .refused .programTooLong

end Sys2Proof.Machine
end

