-- ==== Sys2Proof/Machine/Operands.lean ====
section
/-! DEFINITION. Where operands come from and where results go (10_state.md R26, 20_memory.md R48), and the four functions of the arithmetic unit (41_arithmetic.md R77 to R84). -/

namespace Sys2Proof.Machine

/-- The slot of the second element, `size - 2`: the left source and the destination of arithmetic (41_arithmetic.md R76). -/
def State.secondIndex (s : State) : Nat := s.size.toNat - 2

/-- The slot of the top element, `size - 1` (41_arithmetic.md R76). -/
def State.topIndex (s : State) : Nat := s.size.toNat - 1

/-- The slot the next Push writes, `size`: the first dead slot (10_state.md R17). -/
def State.freeIndex (s : State) : Nat := s.size.toNat

/-- `a`, the LEFT operand: "the element pushed earlier" (41_arithmetic.md R81). -/
def State.leftOperand (s : State) : Word := s.slot s.secondIndex

/-- `b`, the RIGHT operand: "the element pushed later" (41_arithmetic.md R81). -/
def State.rightOperand (s : State) : Word := s.slot s.topIndex

/-- `stack[size] <- v; size <- size + 1` (40_push.md R72). -/
def State.pushed (v : Word) (s : State) : State := s.writeStack s.freeIndex v (s.size + 1#11)

/-- `stack[size-2] <- r; size <- size - 1`: the old top slot becomes dead and keeps its word (41_arithmetic.md R76). -/
def State.combined (r : Word) (s : State) : State := s.writeStack s.secondIndex r (s.size - 1#11)

/-- `f_Add` (41_arithmetic.md R77, R82). -/
def fAdd (a b : Word) : Word := Config.resultWord (sint a + sint b)

/-- `f_Sub` (41_arithmetic.md R78, R82). -/
def fSub (a b : Word) : Word := Config.resultWord (sint a - sint b)

/-- `f_Mul`: the low 64 bits of the product (41_arithmetic.md R79, R82). -/
def fMul (a b : Word) : Word := Config.resultWord (sint a * sint b)

/-- The one pair whose quotient does not fit (41_arithmetic.md R84). -/
def divCorner (a b : Word) : Bool := decide (a = int64Min) && decide (b = minusOne)

/-- `f_Div`: the quotient truncated toward zero, with the parameter `div_min_by_minus1` for the one pair whose quotient
does not fit (41_arithmetic.md R80, R83, R84). -/
def fDiv (a b : Word) : Word :=
  if divCorner a b then Config.divMinByMinus1 else wrap64 (tdiv (sint a) (sint b))

/-- The shape that Add, Sub and Mul share (41_arithmetic.md R76). -/
def executeBinary (f : Word → Word → Word) (s : State) : Executed :=
  if s.stackShort then .error .stackUnderflow
  else .ok (s.combined (f s.leftOperand s.rightOperand))

/-- The shape of Div, which checks the count first and the divisor second (41_arithmetic.md R76, R85). -/
def executeDivision (f : Word → Word → Word) (s : State) : Executed :=
  if s.stackShort then .error .stackUnderflow
  else if divisorIsZero s.rightOperand then .error .divideByZero
  else .ok (s.combined (f s.leftOperand s.rightOperand))

end Sys2Proof.Machine
end

