-- ==== Sys2Proof/Machine/Arithmetic.lean ====
section
/-! DEFINITION. Add, Sub, Mul and Div (41_arithmetic.md). Each ignores the operand field of its word (30_encoding.md R63). -/

namespace Sys2Proof.Machine

/-- Execute of `Add` (41_arithmetic.md R77). -/
def executeAdd (s : State) : Executed := executeBinary fAdd s

/-- Execute of `Sub` (41_arithmetic.md R78). -/
def executeSub (s : State) : Executed := executeBinary fSub s

/-- Execute of `Mul` (41_arithmetic.md R79). -/
def executeMul (s : State) : Executed := executeBinary fMul s

/-- Execute of `Div` (41_arithmetic.md R80). -/
def executeDiv (s : State) : Executed := executeDivision fDiv s

/-- The meaning of `Add` (41_arithmetic.md R77, 43_fetch_execute.md R101). -/
def execAdd (_operand : Word) (s : State) : Host.Outcome State Fault Refusal :=
  withSlots s (retire s (executeAdd s))

/-- The meaning of `Sub` (41_arithmetic.md R78, 43_fetch_execute.md R101). -/
def execSub (_operand : Word) (s : State) : Host.Outcome State Fault Refusal :=
  withSlots s (retire s (executeSub s))

/-- The meaning of `Mul` (41_arithmetic.md R79, 43_fetch_execute.md R101). -/
def execMul (_operand : Word) (s : State) : Host.Outcome State Fault Refusal :=
  withSlots s (retire s (executeMul s))

/-- The meaning of `Div` (41_arithmetic.md R80, 43_fetch_execute.md R101). -/
def execDiv (_operand : Word) (s : State) : Host.Outcome State Fault Refusal :=
  withSlots s (retire s (executeDiv s))

end Sys2Proof.Machine
end

