-- ==== Sys2Proof/Machine/Control.lean ====
section
/-! DEFINITION. Halt, Jump and the unknown kinds (42_halt_jump_illegal.md). None of them touches the stack. -/

namespace Sys2Proof.Machine

/-- Execute of `Halt`: `halted <- 1`, and it always succeeds (42_halt_jump_illegal.md R90). -/
def executeHalt (s : State) : Executed := .ok { s with halted := true }

/-- Execute of `Jump`: "declared but not dispatched by current semantics", so IllegalInstruction, always
(42_halt_jump_illegal.md R92, R93, decision D12). -/
def executeJump (_s : State) : Executed := .error .illegalInstruction

/-- Execute of an unknown kind: IllegalInstruction, always (42_halt_jump_illegal.md R94). -/
def executeUnknown (_s : State) : Executed := .error .illegalInstruction

/-- The meaning of `Halt`; `ip` advances as after any success (42_halt_jump_illegal.md R90, R91, decision D11). -/
def execHalt (_operand : Word) (s : State) : Host.Outcome State Fault Refusal := retire s (executeHalt s)

/-- The meaning of `Jump`: it takes the IllegalInstruction fault (42_halt_jump_illegal.md R92). -/
def execJump (_operand : Word) (s : State) : Host.Outcome State Fault Refusal := retire s (executeJump s)

/-- The meaning of a word of an unknown kind: it takes the IllegalInstruction fault (42_halt_jump_illegal.md R94). -/
def execUnknown (_kind : BitVec 8) (_operand : Word) (s : State) : Host.Outcome State Fault Refusal :=
  retire s (executeUnknown s)

end Sys2Proof.Machine
end

