-- ==== Sys2Proof/Machine/Push.lean ====
section
/-! DEFINITION. Push (40_push.md). -/

namespace Sys2Proof.Machine

/-- Execute of `Push n` (40_push.md R72). -/
def executePush (operand : Word) (s : State) : Executed :=
  if s.stackFull then .error .stackOverflow else .ok (s.pushed operand)

/-- The meaning of `Push n`: Execute, then the sequencer's end of the instruction (40_push.md R72, 43_fetch_execute.md R101). -/
def execPush (operand : Word) (s : State) : Host.Outcome State Fault Refusal :=
  withSlots s (retire s (executePush operand s))

end Sys2Proof.Machine
end

