-- ==== Sys2Proof/Machine/Dispatch.lean ====
section
/-! DEFINITION. One arm for each instruction: the fourth and fifth branches of the step, from the Running state (43_fetch_execute.md R97, R101). -/

namespace Sys2Proof.Machine

def exec (i : Instr) (s : State) : Host.Outcome State Fault Refusal :=
  match i with
  | .push operand => Sys2Proof.Machine.execPush operand s
  | .add operand => Sys2Proof.Machine.execAdd operand s
  | .sub operand => Sys2Proof.Machine.execSub operand s
  | .mul operand => Sys2Proof.Machine.execMul operand s
  | .div operand => Sys2Proof.Machine.execDiv operand s
  | .jump operand => Sys2Proof.Machine.execJump operand s
  | .halt operand => Sys2Proof.Machine.execHalt operand s
  | .unknown kind operand => Sys2Proof.Machine.execUnknown kind operand s

end Sys2Proof.Machine
end

