-- ==== Sys2Proof/Machine/Sequencer.lean ====
section
/-! DEFINITION. The sequencer: what one rising clock edge does, given the pins (43_fetch_execute.md R101). -/

namespace Sys2Proof.Machine

/-- The machine's own transition, taken at an enabled edge from an admitted state: hold in a terminal state, else the
fetch range check, else the instruction (43_fetch_execute.md R101, R103, R105). -/
def runEdge (s : State) : Host.Outcome State Fault Refusal :=
  if s.terminal then .next s
  else if s.imemOob then .next (s.takeFault .fetchOutOfRange)
  else exec (decode s.imemData) s

/-- The host's duty "keep `prog` unchanged from the end of reset to the end of the run" is broken at this edge
(70_reset_and_hazards.md R137). -/
def HostInputs.breaksRun (p : HostInputs) (s : State) : Bool := p.newProg.isSome && !s.terminal

/-- `Next(m)`, with the pins as its argument: "reset, then hold, then terminal state, then fetch range, then the
instruction's own checks" (43_fetch_execute.md R101). The two refusals are the model's answer to a host that breaks its
duties (70_reset_and_hazards.md R135, R137; log entries 8 and 10); a terminal machine holds for any value of the program
port (43_fetch_execute.md R105). -/
def clockEdge (p : HostInputs) (s : State) : Host.Outcome State Fault Refusal :=
  if p.rst then resetEdge p.newProg s
  else if p.breaksRun s then .refused .programChanged
  else if p.stepEn then
    (if s.admitted then runEdge (s.supplied p.newProg) else .refused .notAdmitted)
  else .next (s.supplied p.newProg)

/-- Whether a Step happens in this clock period: a transition made by the machine itself from the Running state
(43_fetch_execute.md R101). -/
def State.stepHappens (s : State) : Bool := !s.pins.rst && s.pins.stepEn && !s.terminal

/-- The program with `w` at index `i`; an index past the end is reached through words of zeros. -/
def Program.withWord (prog : Program) (i : Nat) (w : InstrWord) : Program :=
  prog.take i ++ List.replicate (i - prog.length) 0#72 ++ w :: prog.drop (i + 1)

/-- The host's moves with stepping enabled at the next edge: one enabled edge first, unless the host has no move left and
its levels enable every edge. -/
def enableNextEdge (idle : IdlePins) : List HostInputs → List HostInputs
  | [] => if idle.toInputs = HostInputs.free then [] else [HostInputs.free]
  | h :: t => HostInputs.free :: h :: t

/-- The state with the word `w` where the next step fetches, and that step enabled: the machine Running, the program's
word at `ip` replaced, and an enabled edge put before the host's further moves and levels where they need one (log
entry 15). -/
def State.placeWord (s : State) (w : InstrWord) : State :=
  { s with
    halted := false, faulted := false, err := 0#3,
    prog := Program.withWord s.prog s.ip.toNat w,
    inputs := enableNextEdge s.idle s.inputs }

end Sys2Proof.Machine
end

