-- ==== Sys2Proof/Machine/Step.lean ====
section
/-! DEFINITION. One step of the model: one rising edge of `clk` (43_fetch_execute.md R101). -/

namespace Sys2Proof.Machine

/-- One clock edge, with the pins the host drives for it. -/
def step (s : State) : Host.Outcome State Fault Refusal := clockEdge s.pins s.tick

/-- The state whose very next step fetches and runs the word `w` of `nbits` bits (log entry 15). -/
def State.withFetchWord (s : State) (nbits w : Nat) : State := s.placeWord (tableWord nbits w)

end Sys2Proof.Machine
end

