-- ==== Sys2Proof/Machine/Execute.lean ====
section
/-! DEFINITION. The source's own operation Execute, "through a single exhaustive match" (43_fetch_execute.md R97). It knows nothing of `ip`, of fetching, or of the terminal states; the meanings of `exec` wrap its bodies with the sequencer's end of the instruction. -/

namespace Sys2Proof.Machine

/-- `Execute(m, w)` on the instruction of the word (43_fetch_execute.md R97). The spec defines it for admitted states
only (10_state.md R34, 43_fetch_execute.md R98); that this bare function also answers where `size > 1024`, as the bodies
read there, is the model's choice (DESIGN CHOICE, log entry 24), and `exec` and `step` stop there. -/
def execute (i : Instr) (s : State) : Executed :=
  match i with
  | .push operand => executePush operand s
  | .add _ => executeAdd s
  | .sub _ => executeSub s
  | .mul _ => executeMul s
  | .div _ => executeDiv s
  | .jump _ => executeJump s
  | .halt _ => executeHalt s
  | .unknown _ _ => executeUnknown s

end Sys2Proof.Machine
end

