-- ==== Sys2Proof/Machine/Observer.lean ====
section
/-! DEFINITION. What the host sees: the output ports, the dump as a value, and the dump's text (10_state.md R31, R32; 60_exceptions.md R122 to R126). -/

namespace Sys2Proof.Machine

/-- `DumpValue(m)`: "`stack[0], stack[1], ..., stack[size-1]`", bottom first (60_exceptions.md R123).
Where `size > 1024`, a state to which the spec gives no meaning (10_state.md R34), the answer is the model's choice
(DESIGN CHOICE, log entry 25). -/
def State.dumpValue (s : State) : List Word := (List.range s.size.toNat).map s.slot

/-- `dbg_live = (dbg_idx < size)` (60_exceptions.md R124); on states that are not admitted, log entry 25. -/
def State.dbgLive (s : State) (idx : BitVec 10) : Bool := decide (idx.toNat < s.size.toNat)

/-- `dbg_val`: the word of the slot asked for, or any value in a period in which a Step happens (60_exceptions.md R124;
log entry 12). For a dead slot it is the physical word, which the host must ignore; on states that are
not admitted, log entry 25. -/
def State.dbgVal (s : State) (idx : BitVec 10) : Word :=
  if s.stepHappens then Config.dbgValDuringStep s.inputs.length s.ip.toNat idx else s.slot idx.toNat

/-- The output ports, functions of the state and of `dbg_idx` alone (10_state.md R31, R32, decision D24); on states that are
not admitted, log entry 25. -/
def State.outputs (s : State) (idx : BitVec 10) : Outputs where
  imemAddr := s.imemAddr
  haltedO := s.halted
  faultedO := s.faulted
  errO := s.err
  sizeO := s.size
  ipO := s.ip
  dbgVal := s.dbgVal idx
  dbgLive := s.dbgLive idx

/-- The result of a run that has ended (43_fetch_execute.md R107); on states that are not admitted, log entry 25. -/
def State.result (s : State) : RunResult where
  liveStack := s.dumpValue
  size := s.size
  ip := s.ip
  halted := s.halted
  faulted := s.faulted
  err := s.err

/-! ### The dump's text, a duty of the host (60_exceptions.md R126, decision D20) -/

/-- The byte of a decimal digit. -/
def digitByte (d : Nat) : Byte := BitVec.ofNat 8 (48 + d)

/-- Decimal digits of `n` without leading zeros, most significant first; `fuel` bounds the number of digits. -/
def decimalDigits : Nat → Nat → List Byte
  | 0, _ => []
  | fuel + 1, n => if n < 10 then [digitByte n] else decimalDigits fuel (n / 10) ++ [digitByte (n % 10)]

/-- An element "as a signed decimal numeral": a leading `-` for negatives, no `+`, no leading zeros. A 64-bit
magnitude has at most 19 digits. -/
def decimalText (w : Word) : List Byte :=
  if sint w < 0 then 0x2D#8 :: decimalDigits 20 (sint w).natAbs else decimalDigits 20 (sint w).natAbs

/-- One line: two spaces, the text, one line feed. -/
def dumpLine (text : List Byte) : List Byte := [0x20#8, 0x20#8] ++ text ++ [0x0A#8]

/-- The header line `Stack:`. -/
def dumpHeader : List Byte := [0x53#8, 0x74#8, 0x61#8, 0x63#8, 0x6B#8, 0x3A#8, 0x0A#8]

/-- The empty marker `[empty]`. -/
def emptyMarker : List Byte := [0x5B#8, 0x65#8, 0x6D#8, 0x70#8, 0x74#8, 0x79#8, 0x5D#8]

/-- The dump text of a stack given bottom to top. -/
def dumpText : List Word → List Byte
  | [] => dumpHeader ++ dumpLine emptyMarker
  | w :: ws => dumpHeader ++ ((w :: ws).map (fun v => dumpLine (decimalText v))).flatten

end Sys2Proof.Machine
end

