-- ==== Sys2Proof/Machine/Listing.lean ====
section
/-! DEFINITION. The spec's assembler notation of an instruction, as ASCII bytes (30_encoding.md R66, R67, decision D4). Printing kind names is the host's, outside the block (R69). -/

namespace Sys2Proof.Machine

/-- One hexadecimal digit, capital letters as the spec writes them (00_scope.md R8). -/
def hexDigit (d : Nat) : Byte := if d < 10 then BitVec.ofNat 8 (48 + d) else BitVec.ofNat 8 (55 + d)

/-- The two hexadecimal digits of a byte. -/
def hexByte (b : Byte) : List Byte := [hexDigit (b.toNat / 16), hexDigit (b.toNat % 16)]

/-- An instruction word "with 18 hexadecimal digits", most significant first (00_scope.md R8). -/
def hexWord (w : InstrWord) : List Byte := ((wordBytes w).map hexByte).flatten

/-- The mnemonic of a kind; an unknown kind has none and is written `.word` (30_encoding.md R66). -/
def mnemonicText : Kind → List Byte
  | .push => [0x50#8, 0x75#8, 0x73#8, 0x68#8]
  | .add => [0x41#8, 0x64#8, 0x64#8]
  | .sub => [0x53#8, 0x75#8, 0x62#8]
  | .mul => [0x4D#8, 0x75#8, 0x6C#8]
  | .div => [0x44#8, 0x69#8, 0x76#8]
  | .jump => [0x4A#8, 0x75#8, 0x6D#8, 0x70#8]
  | .halt => [0x48#8, 0x61#8, 0x6C#8, 0x74#8]
  | .unknown => [0x2E#8, 0x77#8, 0x6F#8, 0x72#8, 0x64#8]

/-- The notation of an instruction: Push and Jump are followed by one space and the operand as a signed decimal, the
other five mnemonics stand alone, and an unknown kind is `.word 0x<18 hexadecimal digits>` (30_encoding.md R66). -/
def listingText (i : Instr) : List Byte :=
  match i with
  | .push n => mnemonicText .push ++ 0x20#8 :: decimalText n
  | .add _ => mnemonicText .add
  | .sub _ => mnemonicText .sub
  | .mul _ => mnemonicText .mul
  | .div _ => mnemonicText .div
  | .jump n => mnemonicText .jump ++ 0x20#8 :: decimalText n
  | .halt _ => mnemonicText .halt
  | .unknown kind n => mnemonicText .unknown ++ [0x20#8, 0x30#8, 0x78#8] ++ hexWord (packWord kind n)

end Sys2Proof.Machine
end

