-- ==== Sys2Proof/Safety.lean ====
section
/-! DEFINITION. The terms in which claims about the machine are stated: what a run's end is, the invariant, what an instruction leaves unchanged, and when two states differ in dead slots only. -/

namespace Sys2Proof.Machine

/-! ### Outcomes -/

/-- The next state of an outcome, if there is one. -/
def nextOf? : Host.Outcome State Fault Refusal → Option State
  | .next t => some t
  | .fault _ => none
  | .refused _ => none

/-- The state of a successful Execute, changed by `f`; an error stays as it is. -/
def Executed.map (f : State → State) : Executed → Executed
  | .ok m => .ok (f m)
  | .error e => .error e

/-- Instructions executed one after another, each from the state the one before left, whatever the program holds. -/
def execAll : List Instr → State → Host.Outcome State Fault Refusal
  | [], s => .next s
  | i :: is, s =>
    match exec i s with
    | .next t => execAll is t
    | .fault r => .fault r
    | .refused r => .refused r

/-! ### The end of a run (43_fetch_execute.md R107) -/

/-- The run has ended successfully. -/
def State.endedSuccessfully (s : State) : Bool := s.halted && !s.faulted

/-- The run has ended in a fault. -/
def State.endedInFault (s : State) : Bool := s.faulted

/-- A clock edge at which the host neither resets nor changes the program (70_reset_and_hazards.md R137). -/
def HostInputs.keepsRun (p : HostInputs) : Bool := !p.rst && p.newProg.isNone

/-- The pins of a clock edge at which a Running machine steps. -/
def HostInputs.enables (p : HostInputs) : Bool := p.keepsRun && p.stepEn

/-- The pins at the clock edge after `k` further edges. -/
def State.pinsAt (s : State) (k : Nat) : HostInputs := (s.inputs[k]?).getD s.idle.toInputs

/-- How many of the next `n` edges have `step_en = 1`: what the host's fairness supplies (70_reset_and_hazards.md R142). -/
def State.enabledEdges (s : State) (n : Nat) : Nat := (List.range n).countP (fun k => (s.pinsAt k).stepEn)

/-- Running, admitted, and stepped at the next edge: the states from which the sequencer takes a Step
(43_fetch_execute.md R101). -/
def State.dueToStep (s : State) : Bool := s.pins.enables && s.admitted && !s.terminal

/-! ### The invariant -/

/-- Every live slot has been written since power-up (10_state.md R16, 20_memory.md R50). -/
abbrev State.liveWritten (s : State) : Prop :=
  ∀ i, i < s.size.toNat → (Memory.find? s.stack i).isSome = true

/-- The admitted state space (10_state.md R34), the canonical form of the RAM, no live slot left unwritten, and no
changed program waiting behind a run that has not ended (70_reset_and_hazards.md R137). -/
abbrev State.Inv (s : State) : Prop :=
  s.admitted = true ∧ Memory.wf s.stack ∧ s.liveWritten ∧ (s.nextProg.isSome = true → s.terminal = true)

/-! ### Frames (00_scope.md R13) -/

/-- The flags and the cause register are unchanged. -/
abbrev State.SameFlags (s t : State) : Prop :=
  t.halted = s.halted ∧ t.faulted = s.faulted ∧ t.err = s.err

/-- Every piece of the machine's state is unchanged, dead slots included, and so is the program of the run. -/
abbrev State.SameMachine (s t : State) : Prop :=
  t.stack = s.stack ∧ t.size = s.size ∧ t.ip = s.ip ∧ State.SameFlags s t ∧ t.prog = s.prog

/-- The programs and the host's further moves and levels are unchanged. -/
abbrev State.SameHost (s t : State) : Prop :=
  t.prog = s.prog ∧ t.nextProg = s.nextProg ∧ t.inputs = s.inputs ∧ t.idle = s.idle

/-- Every physical slot of the stack RAM reads as before, but for slot `k`. -/
abbrev State.SameSlotsBut (k : Nat) (s t : State) : Prop := ∀ i, i ≠ k → t.slot i = s.slot i

/-- `t` is `s` with `r` in place of its two topmost elements, `ip` advanced, and nothing else changed
(41_arithmetic.md R76, 43_fetch_execute.md R102). -/
abbrev State.Combines (s t : State) (r : Word) : Prop :=
  t.size.toNat + 1 = s.size.toNat ∧ t.slot (s.size.toNat - 2) = r ∧
    State.SameSlotsBut (s.size.toNat - 2) s t ∧ t.ip = s.ip + 1#64 ∧ State.SameFlags s t ∧ State.SameHost s t

/-- `s` with the fault of code `c` recorded and nothing else changed (60_exceptions.md R115). -/
abbrev State.withFault (s : State) (c : BitVec 3) : State := { s with faulted := true, err := c }

/-- Two states that differ at most in the words of dead slots (10_state.md R16). -/
abbrev State.SameLive (s t : State) : Prop :=
  t.size = s.size ∧ t.ip = s.ip ∧ State.SameFlags s t ∧ State.SameHost s t ∧
    ∀ i, i < s.size.toNat → t.slot i = s.slot i

end Sys2Proof.Machine
end

