-- ==== Sys2Proof/Certificates/Slice0/Obligations.lean ====
section
/-! DEFINITION. The statements about the machine, each with the rule of spec/ it formalises. -/

open Sys2Proof Sys2Proof.Machine

/-! ### Encoding (30_encoding.md, 20_memory.md R43) -/

/-- The worked encodings of 30_encoding.md section 6, word by word (the kind numbers are the spec's decision D3). -/
def Obligations.WorkedEncodingsDecode : Prop :=
  decode 0x000000000000000045#72 = .push 69#64 ∧
  decode 0x0000000000000001A4#72 = .push 420#64 ∧
  decode 0x00FFFFFFFFFFFFFFF9#72 = .push (BitVec.ofInt 64 (-7)) ∧
  decode 0x007FFFFFFFFFFFFFFF#72 = .push (BitVec.ofInt 64 9223372036854775807) ∧
  decode 0x008000000000000000#72 = .push (BitVec.ofInt 64 (-9223372036854775808)) ∧
  decode 0x010000000000000000#72 = .add 0#64 ∧
  decode 0x020000000000000000#72 = .sub 0#64 ∧
  decode 0x030000000000000000#72 = .mul 0#64 ∧
  decode 0x040000000000000000#72 = .div 0#64 ∧
  decode 0x050000000000000000#72 = .jump 0#64 ∧
  decode 0x060000000000000000#72 = .halt 0#64 ∧
  decode 0x0100000000DEADBEEF#72 = .add 0xDEADBEEF#64 ∧
  decode 0x070000000000000000#72 = .unknown 7#8 0#64 ∧
  decode 0xFF0000000000000000#72 = .unknown 255#8 0#64

/-- R60: the kind field alone selects the instruction, by the map of kind numbers (decision D3), and the other 249
values are the unknown kinds. -/
def Obligations.KindFieldAloneSelects : Prop :=
  ∀ n : Word,
    decode (0x00#8 ++ n) = .push n ∧ decode (0x01#8 ++ n) = .add n ∧ decode (0x02#8 ++ n) = .sub n ∧
    decode (0x03#8 ++ n) = .mul n ∧ decode (0x04#8 ++ n) = .div n ∧ decode (0x05#8 ++ n) = .jump n ∧
    decode (0x06#8 ++ n) = .halt n ∧ ∀ k : BitVec 8, 7 ≤ k.toNat → decode (k ++ n) = .unknown k n

/-- Decoding the word of a well-formed instruction gives the instruction back, with every operand. -/
def Obligations.DecodeOfEncodeIsIdentity : Prop :=
  ∀ i : Instr, i.wf = true → decode (encode i) = i

/-- Every one of the `2^72` words decodes to a well-formed instruction, and encoding that gives the same word back. -/
def Obligations.EncodeOfDecodeIsIdentity : Prop :=
  ∀ w : InstrWord, (decode w).wf = true ∧ encode (decode w) = w

/-- R61: the decoder agrees with the table of matches and masks tried in order, and no two of the seven declared rows
select one word. -/
def Obligations.DecodingFollowsMatchAndMask : Prop :=
  (∀ w : InstrWord, (opcodeRows.find? (fun r => r.selects w)).map (fun r => r.kind) = some (decode w).kind) ∧
  ∀ (w : InstrWord) (p q : OpcodeRow), p ∈ opcodeRows.take 7 → q ∈ opcodeRows.take 7 →
    p.selects w = true → q.selects w = true → p = q

/-- R43: an image is `PLEN` records of 9 bytes, record `i` is instruction word `i`, and byte `j` of a record is the
byte of the word that ends at bit `64 - 8 * j`: the kind field first, then the operand from its most significant byte
(decision D21). -/
def Obligations.ImageIsNineBigEndianBytesAWord : Prop :=
  ∀ p : Program, (programImage p).length = 9 * p.length ∧
    ∀ (i j : Nat) (w : InstrWord), p[i]? = some w → j < 9 →
      (programImage p)[9 * i + j]? = some (w.extractLsb' (64 - 8 * j) 8)

/-- The program of an image is the program the image was made of, and bytes that are no whole number of records are
rejected by name. -/
def Obligations.ImageReadsBackAsItsProgram : Prop :=
  (∀ p : Program, programOfImage (programImage p) = .ok p) ∧
  ∀ bs : List Byte, bs.length % 9 ≠ 0 → programOfImage bs = .error .truncatedRecord

/-- R63: for each kind value other than 0x00 all words of the kind are the same instruction, whatever the operand. -/
def Obligations.OperandMattersToPushOnly : Prop :=
  ∀ (k : BitVec 8) (x y : Word) (s : State), k ≠ 0x00#8 →
    exec (decode (k ++ x)) s = exec (decode (k ++ y)) s ∧ execute (decode (k ++ x)) s = execute (decode (k ++ y)) s

/-- R67: the mnemonics that stand alone get a zero operand field, `Push n` and `Jump n` get theirs, and a word whose
instruction stands alone gives the canonical word, not always the original one (decision D4). -/
def Obligations.CanonicalWordsZeroTheIgnoredOperand : Prop :=
  ∀ n : Word,
    canonicalWord (decode (0x00#8 ++ n)) = 0x00#8 ++ n ∧ canonicalWord (decode (0x05#8 ++ n)) = 0x05#8 ++ n ∧
    canonicalWord (decode (0x01#8 ++ n)) = 0x010000000000000000#72 ∧
    canonicalWord (decode (0x02#8 ++ n)) = 0x020000000000000000#72 ∧
    canonicalWord (decode (0x03#8 ++ n)) = 0x030000000000000000#72 ∧
    canonicalWord (decode (0x04#8 ++ n)) = 0x040000000000000000#72 ∧
    canonicalWord (decode (0x06#8 ++ n)) = 0x060000000000000000#72

/-! ### What each instruction does: result, frame and failure -/

/-- R72: Push appends its operand at slot `size` and raises StackOverflow, writing nothing, exactly on a full stack.
The advance of `ip` and the record of the fault are the sequencer's (R102, R104). -/
def Obligations.PushAppendsItsOperand : Prop :=
  ∀ (n : Word) (s : State),
    decode (0x00#8 ++ n) = .push n ∧
    (s.size.toNat < 1024 → ∃ t, exec (.push n) s = .next t ∧
      t.size.toNat = s.size.toNat + 1 ∧ t.slot s.size.toNat = n ∧ State.SameSlotsBut s.size.toNat s t ∧
      t.ip = s.ip + 1#64 ∧ State.SameFlags s t ∧ State.SameHost s t) ∧
    (s.size.toNat = 1024 → exec (.push n) s = .next (s.withFault 1#3))

/-- R77: Add replaces `a`, `b` by their sum reduced modulo `2^64` (decision D5), or raises StackUnderflow. -/
def Obligations.AddReplacesTheTopTwo : Prop :=
  ∀ (n : Word) (s : State),
    decode (0x01#8 ++ n) = .add n ∧
    (2 ≤ s.size.toNat → s.size.toNat ≤ 1024 → ∃ t, exec (.add n) s = .next t ∧
      State.Combines s t (BitVec.ofInt 64 ((s.slot (s.size.toNat - 2)).toInt + (s.slot (s.size.toNat - 1)).toInt))) ∧
    (s.size.toNat < 2 → exec (.add n) s = .next (s.withFault 2#3))

/-- R78: Sub replaces `a`, `b` by `a` minus `b`, second-from-top minus top (decision D5), or raises StackUnderflow. -/
def Obligations.SubReplacesTheTopTwo : Prop :=
  ∀ (n : Word) (s : State),
    decode (0x02#8 ++ n) = .sub n ∧
    (2 ≤ s.size.toNat → s.size.toNat ≤ 1024 → ∃ t, exec (.sub n) s = .next t ∧
      State.Combines s t (BitVec.ofInt 64 ((s.slot (s.size.toNat - 2)).toInt - (s.slot (s.size.toNat - 1)).toInt))) ∧
    (s.size.toNat < 2 → exec (.sub n) s = .next (s.withFault 2#3))

/-- R79: Mul replaces `a`, `b` by the low 64 bits of their product (decision D5), or raises StackUnderflow. -/
def Obligations.MulReplacesTheTopTwo : Prop :=
  ∀ (n : Word) (s : State),
    decode (0x03#8 ++ n) = .mul n ∧
    (2 ≤ s.size.toNat → s.size.toNat ≤ 1024 → ∃ t, exec (.mul n) s = .next t ∧
      State.Combines s t (BitVec.ofInt 64 ((s.slot (s.size.toNat - 2)).toInt * (s.slot (s.size.toNat - 1)).toInt))) ∧
    (s.size.toNat < 2 → exec (.mul n) s = .next (s.withFault 2#3))

/-- R80: Div replaces `a`, `b` by the quotient truncated toward zero; StackUnderflow is raised below two elements, else
DivideByZero on a zero top, and then nothing else is written. The default of `div_min_by_minus1` makes the rule's
formula hold for every pair (decision D6). -/
def Obligations.DivReplacesTheTopTwo : Prop :=
  ∀ (n : Word) (s : State),
    decode (0x04#8 ++ n) = .div n ∧
    (2 ≤ s.size.toNat → s.size.toNat ≤ 1024 → s.slot (s.size.toNat - 1) ≠ 0#64 → ∃ t, exec (.div n) s = .next t ∧
      State.Combines s t
        (BitVec.ofInt 64 ((s.slot (s.size.toNat - 2)).toInt.tdiv (s.slot (s.size.toNat - 1)).toInt))) ∧
    (s.size.toNat < 2 → exec (.div n) s = .next (s.withFault 2#3)) ∧
    (2 ≤ s.size.toNat → s.size.toNat ≤ 1024 → s.slot (s.size.toNat - 1) = 0#64 →
      exec (.div n) s = .next (s.withFault 3#3))

/-- R90: Halt sets `halted` and always succeeds, whatever the stack; the sequencer then advances `ip` (decision D11); a
Running machine is Halted after it, and no later step does anything until reset. -/
def Obligations.HaltSetsHaltedOnly : Prop :=
  ∀ (n : Word) (s : State),
    decode (0x06#8 ++ n) = .halt n ∧
    execute (.halt n) s = .ok { s with halted := true } ∧
    ∃ t, t = { s with halted := true, ip := s.ip + 1#64 } ∧ exec (.halt n) s = .next t ∧
      (s.control = some .running → t.control = some .halted) ∧
      (t.admitted = true → t.pins.rst = false → ∃ u, step t = .next u ∧ State.SameMachine t u)

/-- R92: Jump raises IllegalInstruction, always, whatever the operand and whatever the stack, and writes nothing else
(decision D12). -/
def Obligations.JumpIsIllegal : Prop :=
  ∀ (n : Word) (s : State),
    decode (0x05#8 ++ n) = .jump n ∧
    execute (.jump n) s = .error .illegalInstruction ∧ exec (.jump n) s = .next (s.withFault 4#3)

/-- R94: every word whose kind field is 0x07 to 0xFF raises IllegalInstruction, always, and writes nothing else. -/
def Obligations.UnknownKindsAreIllegal : Prop :=
  ∀ (k : BitVec 8) (n : Word) (s : State), 7 ≤ k.toNat →
    decode (k ++ n) = .unknown k n ∧ execute (.unknown k n) s = .error .illegalInstruction ∧
    exec (.unknown k n) s = .next (s.withFault 4#3)

/-- The model's choice, log entry 9: in a state whose `size` counts slots the RAM does not have, the five instructions
that reach the RAM stop with a fault of the model's own. Such states are outside the admitted state space (10_state.md
R34), so no run meets one. -/
def Obligations.NoSlotBeyondTheRam : Prop :=
  ∀ (n : Word) (s : State), 1024 < s.size.toNat →
    exec (.push n) s = .fault .noSuchSlot ∧ exec (.add n) s = .fault .noSuchSlot ∧
    exec (.sub n) s = .fault .noSuchSlot ∧ exec (.mul n) s = .fault .noSuchSlot ∧
    exec (.div n) s = .fault .noSuchSlot

/-! ### The integer laws (41_arithmetic.md) -/

/-- R82: wrap-around. The result is the 64-bit adder's sum with the carry dropped, `a + NOT(b) + 1`, and the low half
of the full 128-bit product; it stands for the exact result whenever that fits, and is congruent to it modulo `2^64`
always; and no result raises anything (decision D5). -/
def Obligations.ResultsWrapModulo64Bits : Prop :=
  ∀ (n : Word) (s : State) (a b : Word), 2 ≤ s.size.toNat → s.size.toNat ≤ 1024 →
    s.slot (s.size.toNat - 2) = a → s.slot (s.size.toNat - 1) = b →
    (∃ t, exec (.add n) s = .next t ∧ State.SameFlags s t ∧ t.slot (s.size.toNat - 2) = a + b ∧
      (-(2 ^ 63) ≤ a.toInt + b.toInt → a.toInt + b.toInt < 2 ^ 63 →
        (t.slot (s.size.toNat - 2)).toInt = a.toInt + b.toInt) ∧
      (2 ^ 64 : Int) ∣ (t.slot (s.size.toNat - 2)).toInt - (a.toInt + b.toInt)) ∧
    (∃ t, exec (.sub n) s = .next t ∧ State.SameFlags s t ∧ t.slot (s.size.toNat - 2) = a + ~~~b + 1#64 ∧
      (-(2 ^ 63) ≤ a.toInt - b.toInt → a.toInt - b.toInt < 2 ^ 63 →
        (t.slot (s.size.toNat - 2)).toInt = a.toInt - b.toInt) ∧
      (2 ^ 64 : Int) ∣ (t.slot (s.size.toNat - 2)).toInt - (a.toInt - b.toInt)) ∧
    (∃ t, exec (.mul n) s = .next t ∧ State.SameFlags s t ∧
      t.slot (s.size.toNat - 2) = (a.setWidth 128 * b.setWidth 128).setWidth 64 ∧
      (-(2 ^ 63) ≤ a.toInt * b.toInt → a.toInt * b.toInt < 2 ^ 63 →
        (t.slot (s.size.toNat - 2)).toInt = a.toInt * b.toInt) ∧
      (2 ^ 64 : Int) ∣ (t.slot (s.size.toNat - 2)).toInt - a.toInt * b.toInt)

/-- R83: the quotient `q` is the one with `a = q * b + r`, `abs(r) < abs(b)`, and `r` zero or of the sign of `a`, for
every divisor but zero and every pair but the one of R84. -/
def Obligations.DivisionTruncatesTowardZero : Prop :=
  ∀ (n : Word) (s : State) (a b : Word), 2 ≤ s.size.toNat → s.size.toNat ≤ 1024 →
    s.slot (s.size.toNat - 2) = a → s.slot (s.size.toNat - 1) = b → b ≠ 0#64 →
    ¬ (a = 0x8000000000000000#64 ∧ b = 0xFFFFFFFFFFFFFFFF#64) →
    ∃ t, exec (.div n) s = .next t ∧ ∃ r : Int,
      a.toInt = (t.slot (s.size.toNat - 2)).toInt * b.toInt + r ∧ r.natAbs < b.toInt.natAbs ∧
      (r = 0 ∨ r.sign = a.toInt.sign)

/-- R84: `INT64_MIN / -1` runs, and its result is the configuration field `div_min_by_minus1`, whose default is
`INT64_MIN` (decision D6: the spec's choice; log entry 6). -/
def Obligations.MinByMinusOneGivesTheParameter : Prop :=
  ∀ (n : Word) (s : State), 2 ≤ s.size.toNat → s.size.toNat ≤ 1024 →
    s.slot (s.size.toNat - 2) = 0x8000000000000000#64 → s.slot (s.size.toNat - 1) = 0xFFFFFFFFFFFFFFFF#64 →
    Config.divMinByMinus1 = 0x8000000000000000#64 ∧
    ∃ t, exec (.div n) s = .next t ∧ State.Combines s t Config.divMinByMinus1

/-- R85: the count check of Div comes first: below two elements it raises StackUnderflow whatever the top is, and only
then is the top compared with zero, whatever the dividend is. Where `size > 1024` Execute's answer is the model's
choice, log entry 24. -/
def Obligations.DivChecksTheCountFirst : Prop :=
  ∀ (n : Word) (s : State),
    (s.size.toNat < 2 → execute (.div n) s = .error .stackUnderflow) ∧
    (2 ≤ s.size.toNat → s.slot (s.size.toNat - 1) = 0#64 → execute (.div n) s = .error .divideByZero) ∧
    (2 ≤ s.size.toNat → s.slot (s.size.toNat - 1) ≠ 0#64 → ∃ m, execute (.div n) s = .ok m)

/-! ### Execute as a whole (43_fetch_execute.md, 60_exceptions.md) -/

/-- R111, R112, R114, R116: each error of Execute is raised exactly when its rule says, and by no other word.
Where `size > 1024` Execute's answer is the model's choice, log entry 24. -/
def Obligations.ErrorsAreRaisedExactlyWhen : Prop :=
  ∀ (w : InstrWord) (s : State),
    (execute (decode w) s = .error .stackOverflow ↔ w.extractLsb' 64 8 = 0x00#8 ∧ s.size.toNat = 1024) ∧
    (execute (decode w) s = .error .stackUnderflow ↔
      (1 ≤ (w.extractLsb' 64 8).toNat ∧ (w.extractLsb' 64 8).toNat ≤ 4) ∧ s.size.toNat < 2) ∧
    (execute (decode w) s = .error .divideByZero ↔
      w.extractLsb' 64 8 = 0x04#8 ∧ 2 ≤ s.size.toNat ∧ s.slot (s.size.toNat - 1) = 0#64) ∧
    (execute (decode w) s = .error .illegalInstruction ↔
      w.extractLsb' 64 8 = 0x05#8 ∨ 7 ≤ (w.extractLsb' 64 8).toNat)

/-- R98: Execute never reads or writes `ip`, never reads or writes `faulted` or `err`, never reads `halted`, writes it by
Halt only, and writes at most one stack slot: the first dead slot by Push, the second element's slot by Add, Sub, Mul
and Div, and none by Halt; Jump and the unknown kinds never succeed. Where `size > 1024` Execute's answer is the
model's choice, log entry 24. -/
def Obligations.ExecuteKeepsOutOfTheSequencer : Prop :=
  ∀ (i : Instr) (s : State),
    (∀ m, execute i s = .ok m → m.ip = s.ip ∧ m.faulted = s.faulted ∧ m.err = s.err ∧ State.SameHost s m ∧
      (i.kind ≠ .halt → m.halted = s.halted) ∧
      match i with
      | .push _ => State.SameSlotsBut s.freeIndex s m
      | .add _ => State.SameSlotsBut s.secondIndex s m
      | .sub _ => State.SameSlotsBut s.secondIndex s m
      | .mul _ => State.SameSlotsBut s.secondIndex s m
      | .div _ => State.SameSlotsBut s.secondIndex s m
      | .halt _ => m.stack = s.stack ∧ m.size = s.size
      | .jump _ => False
      | .unknown _ _ => False) ∧
    (∀ (p : BitVec 64) (f : Bool) (e : BitVec 3),
      execute i { s with ip := p, faulted := f, err := e } =
        (execute i s).map (fun m => { m with ip := p, faulted := f, err := e })) ∧
    (s.halted = false →
      execute i { s with halted := true } = (execute i s).map (fun m => { m with halted := true }))

/-- R91: Execute of Halt on a state with `halted = 1` returns the same state. -/
def Obligations.HaltIsIdempotent : Prop :=
  ∀ (n : Word) (s : State), s.halted = true → execute (.halt n) s = .ok s

/-- What the meanings of the model are made of (R101's last two branches): the result of Execute, with `ip` advanced on
success, and with only the fault recorded in the state before it on failure. -/
def Obligations.ExecIsExecuteThenTheSequencersEnd : Prop :=
  ∀ (i : Instr) (s : State), s.size.toNat ≤ 1024 →
    (∃ m, execute i s = .ok m ∧ exec i s = .next { m with ip := m.ip + 1#64 }) ∨
    ∃ e, execute i s = .error e ∧ exec i s = .next { s with faulted := true, err := e.code }

/-- R74: Push balance. After `N <= 1024` pushes from the reset state, `size = N` and the stack, bottom to top, equals
the pushed values in order; one more push on a full stack raises StackOverflow and changes nothing else. -/
def Obligations.PushesBalance : Prop :=
  ∀ vs : List Word, vs.length ≤ 1024 →
    ∃ t, execAll (vs.map Instr.push) State.reset = .next t ∧ t.size.toNat = vs.length ∧ t.dumpValue = vs ∧
      (vs.length = 1024 → ∀ n, exec (.push n) t = .next (t.withFault 1#3))

/-- Arithmetic correctness on the stack as a value: for a stack `[..., a, b]` the result is `[..., r]`, and Push gives
`[..., n]` (the source's property, 95_test_vectors.md S4). -/
def Obligations.DumpValueAfterEachInstruction : Prop :=
  ∀ (s : State) (n : Word) (xs : List Word) (a b : Word), s.size.toNat ≤ 1024 →
    (s.size.toNat < 1024 → ∃ t, exec (.push n) s = .next t ∧ t.dumpValue = s.dumpValue ++ [n]) ∧
    (s.dumpValue = xs ++ [a, b] →
      (∃ t, exec (.add n) s = .next t ∧ t.dumpValue = xs ++ [a + b]) ∧
      (∃ t, exec (.sub n) s = .next t ∧ t.dumpValue = xs ++ [a - b]) ∧
      (∃ t, exec (.mul n) s = .next t ∧ t.dumpValue = xs ++ [a * b]) ∧
      (b ≠ 0#64 → ∃ t, exec (.div n) s = .next t ∧ t.dumpValue = xs ++ [a.sdiv b])) ∧
    (∃ t, exec (.halt n) s = .next t ∧ t.dumpValue = s.dumpValue)

/-! ### The step (43_fetch_execute.md R101 to R106) -/

/-- A step runs the decoded instruction: Running, admitted, enabled at this edge, and the word at `ip` is `w`; the edge
uses up the host's pins and nothing else is added around `exec`, which itself advances `ip`. -/
def Obligations.StepRunsTheDecodedInstruction : Prop :=
  ∀ (s : State) (w : InstrWord), s.dueToStep = true → s.prog[s.ip.toNat]? = some w →
    step s = exec (decode w) { s with inputs := s.inputs.tail }

/-- R102: on success the step applies Execute's writes and sets `ip <- ip + 1`, without wrap-around, for every kind;
`faulted` and `err` stay 0; and this is the only way `ip` ever grows. -/
def Obligations.SuccessAdvancesIpByOne : Prop :=
  (∀ (s m : State) (w : InstrWord), s.dueToStep = true → s.prog[s.ip.toNat]? = some w →
    execute (decode w) { s with inputs := s.inputs.tail } = .ok m →
    ∃ t, step s = .next t ∧ t = { m with ip := t.ip } ∧ t.ip.toNat = s.ip.toNat + 1 ∧ t.faulted = false ∧
      t.err = 0#3) ∧
  ∀ s t : State, step s = .next t → s.ip.toNat < t.ip.toNat →
    t.ip.toNat = s.ip.toNat + 1 ∧ ∃ w m, s.dueToStep = true ∧ s.prog[s.ip.toNat]? = some w ∧
      execute (decode w) { s with inputs := s.inputs.tail } = .ok m

/-- R104: when Execute fails the step sets `faulted` and `err` and changes nothing else; `ip` stays at the failing
instruction. -/
def Obligations.FailureRecordsTheFaultOnly : Prop :=
  ∀ (s : State) (w : InstrWord) (e : ErrorKind), s.dueToStep = true → s.prog[s.ip.toNat]? = some w →
    execute (decode w) { s with inputs := s.inputs.tail } = .error e →
    step s = .next { s with inputs := s.inputs.tail, faulted := true, err := e.code }

/-- R103: a fetch at or past the end of the program sets `faulted` and `err = 5` and leaves all else unchanged
(decision D9). -/
def Obligations.FetchOutOfRangeFaults : Prop :=
  ∀ s : State, s.dueToStep = true → s.prog.length ≤ s.ip.toNat →
    step s = .next { s with inputs := s.inputs.tail, faulted := true, err := 5#3 }

/-- R105: in Halted and Faulted no piece of state changes, for any value of `step_en` and of the program port, unless the
host resets (decision D17). Where the host leaves the program memory alone, nothing changes but its own moves. -/
def Obligations.TerminalStatesHold : Prop :=
  ∀ s : State, s.pins.rst = false → s.admitted = true → (s.halted = true ∨ s.faulted = true) →
    ∃ t, step s = .next t ∧ State.SameMachine s t ∧
      (s.pins.newProg = none → t = { s with inputs := s.inputs.tail })

/-- R106: with `step_en = 0` and `rst = 0` every piece of state holds (decision D16), at any instruction boundary and in
the terminal states; the one premise is the host's duty to keep the program while the machine is Running (R137). -/
def Obligations.HoldChangesNothing : Prop :=
  ∀ s : State, s.pins.rst = false → s.pins.stepEn = false → (s.terminal = false → s.pins.newProg = none) →
    ∃ t, step s = .next t ∧ State.SameMachine s t ∧
      (s.pins.newProg = none → t = { s with inputs := s.inputs.tail })

/-- R131: reset, whatever the state and the other inputs, clears the five registers and does not write the RAM; the
machine is then Running with the empty stack, and fetches at index 0. Where the host has not changed the program memory,
nothing else changes but its own moves; the program it put there fits by the host's duty (R137). -/
def Obligations.ResetWinsOverEverything : Prop :=
  ∀ s : State, s.pins.rst = true → (∀ p, s.pins.newProg.or s.nextProg = some p → p.length < 2 ^ 64) →
    ∃ t, step s = .next t ∧ t.size = 0#11 ∧ t.ip = 0#64 ∧ t.halted = false ∧ t.faulted = false ∧ t.err = 0#3 ∧
      t.stack = s.stack ∧ t.control = some .running ∧ t.dumpValue = [] ∧ t.imemAddr = 0#64 ∧
      (s.pins.newProg.or s.nextProg = none →
        t = { s with inputs := s.inputs.tail, size := 0#11, ip := 0#64, halted := false, faulted := false,
                     err := 0#3 })

/-- The model's choice, log entries 10 and 11: a program the host supplies while it resets is the program of the new run
if it fits (`PLEN < 2^IPW`), and a host that breaks that bound is refused at the reset; one it supplies after the run's
end changes nothing but what waits for the next reset, which takes it; and a host that changes the program during a run
is refused. -/
def Obligations.ProgramChangesOnlyAtReset : Prop :=
  ∀ (s : State) (p : Program),
    (s.pins.rst = true → s.pins.newProg.or s.nextProg = some p → p.length < 2 ^ 64 →
      ∃ t, step s = .next t ∧ t.prog = p ∧ t.nextProg = none ∧ t.inputs = s.inputs.tail ∧ t.idle = s.idle) ∧
    (s.pins.rst = true → s.pins.newProg.or s.nextProg = some p → 2 ^ 64 ≤ p.length →
      step s = .refused .programTooLong) ∧
    (s.pins.rst = false → s.pins.newProg = some p → s.admitted = true → s.terminal = true →
      step s = .next { s with inputs := s.inputs.tail, nextProg := some p }) ∧
    (s.pins.rst = false → s.pins.newProg = some p → s.terminal = false → step s = .refused .programChanged)

/-- R34, R135 and the model's log entry 8: a step due from a state outside the admitted state space is refused. -/
def Obligations.StatesOutsideTheAdmittedAreRefused : Prop :=
  ∀ s : State, s.pins.enables = true →
    (1024 < s.size.toNat ∨ s.prog.length < s.ip.toNat ∨ 5 < s.err.toNat ∨
      (s.err = 0#3 ∧ s.faulted = true) ∨ (s.err ≠ 0#3 ∧ s.faulted = false) ∨
      (s.halted = true ∧ s.faulted = true) ∨ 2 ^ 64 ≤ s.prog.length) →
    step s = .refused .notAdmitted

/-- R132: two resets in a row equal one: a second reset edge at which the program memory has not changed again leaves the
state as it is. -/
def Obligations.TwoResetsEqualOne : Prop :=
  ∀ s t : State, s.pins.rst = true → step s = .next t →
    t.pins.rst = true → t.pins.newProg = none → t.nextProg = none ∧ step t = .next { t with inputs := t.inputs.tail }

/-- The model's own interface (log entry 15): from a state whose registers are admitted, the next step after a word is
placed where it fetches is exactly that word's instruction, whatever moves and levels the host has in store. -/
def Obligations.PlacedWordIsRunNext : Prop :=
  ∀ (s : State) (w : Nat), s.size.toNat ≤ 1024 → s.ip.toNat + 1 < 2 ^ 64 → s.prog.length < 2 ^ 64 →
    ∃ t, step (s.withFetchWord 72 w) = exec (decode (BitVec.ofNat 72 w)) t ∧
      t.stack = s.stack ∧ t.size = s.size ∧ t.ip = s.ip ∧ t.inputs = s.inputs ∧ t.idle = s.idle ∧
      t.prog[s.ip.toNat]? = some (BitVec.ofNat 72 w)

/-! ### Faults, flags and the registers over every step -/

/-- R110: the cause codes, as held in `err` (decision D8). -/
def Obligations.CauseCodes : Prop :=
  (Cause.execute .stackOverflow).code = 1#3 ∧ (Cause.execute .stackUnderflow).code = 2#3 ∧
  (Cause.execute .divideByZero).code = 3#3 ∧ (Cause.execute .illegalInstruction).code = 4#3 ∧
  Cause.fetchOutOfRange.code = 5#3

/-- R115, and the order of the checks: a step that takes a fault writes `faulted` and `err` and nothing else; the cause
is the fetch past the end where there is no word, and otherwise the one error of Execute on the word at `ip`. -/
def Obligations.TakingAFaultWritesNothingElse : Prop :=
  ∀ s t : State, s.faulted = false → step s = .next t → t.faulted = true →
    ∃ c : Cause, t = { s with inputs := s.inputs.tail, faulted := true, err := c.code } ∧
      ((c = .fetchOutOfRange ∧ s.prog.length ≤ s.ip.toNat) ∨
        ∃ w e, s.prog[s.ip.toNat]? = some w ∧ c = .execute e ∧
          execute (decode w) { s with inputs := s.inputs.tail } = .error e)

/-- R119, R21: once set, `faulted` (with `err`) and `halted` stay set; only reset clears them. -/
def Obligations.FlagsAreStickyUntilReset : Prop :=
  ∀ s t : State, s.pins.rst = false → step s = .next t →
    (s.faulted = true → t.faulted = true ∧ t.err = s.err) ∧ (s.halted = true → t.halted = true)

/-- R25: the transitions of the control state machine. Reset takes any state to Running, a hold keeps the state, and
nothing but reset leaves Halted or Faulted; a Running machine that is stepped goes to Halted exactly on a Halt, to
Faulted exactly on a fetch out of range or a failed Execute, and stays Running exactly on a success of another kind. -/
def Obligations.ControlStateTransitions : Prop :=
  ∀ s t : State, s.Inv → step s = .next t →
    (s.pins.rst = true → t.control = some .running) ∧
    (s.pins.rst = false → s.pins.stepEn = false → t.control = s.control) ∧
    (s.pins.rst = false → s.control = some .halted → t.control = some .halted) ∧
    (s.pins.rst = false → s.control = some .faulted → t.control = some .faulted) ∧
    (s.pins.rst = false → s.pins.stepEn = true → s.control = some .running →
      (t.control = some .halted ↔ ∃ w, s.prog[s.ip.toNat]? = some w ∧ w.extractLsb' 64 8 = 0x06#8) ∧
      (t.control = some .faulted ↔ s.prog.length ≤ s.ip.toNat ∨
        ∃ w e, s.prog[s.ip.toNat]? = some w ∧
          execute (decode w) { s with inputs := s.inputs.tail } = .error e) ∧
      (t.control = some .running ↔ ∃ w m, s.prog[s.ip.toNat]? = some w ∧ w.extractLsb' 64 8 ≠ 0x06#8 ∧
        execute (decode w) { s with inputs := s.inputs.tail } = .ok m))

/-- R18: without reset a step leaves `size`, adds one by a Push on a stack that is not full, or takes one away by an
arithmetic instruction on at least two elements. -/
def Obligations.WritersOfSize : Prop :=
  ∀ s t : State, s.pins.rst = false → step s = .next t →
    t.size = s.size ∨
    (t.size.toNat = s.size.toNat + 1 ∧ s.size.toNat < 1024 ∧
      ∃ w, s.prog[s.ip.toNat]? = some w ∧ w.extractLsb' 64 8 = 0x00#8) ∨
    (t.size.toNat + 1 = s.size.toNat ∧ 2 ≤ s.size.toNat ∧
      ∃ w, s.prog[s.ip.toNat]? = some w ∧ 1 ≤ (w.extractLsb' 64 8).toNat ∧ (w.extractLsb' 64 8).toNat ≤ 4)

/-- R20: without reset a step leaves `ip`, or adds exactly one after a successful Execute of the word at `ip`. -/
def Obligations.WritersOfIp : Prop :=
  ∀ s t : State, s.pins.rst = false → step s = .next t →
    t.ip = s.ip ∨
    (t.ip.toNat = s.ip.toNat + 1 ∧
      ∃ w m, s.prog[s.ip.toNat]? = some w ∧ execute (decode w) { s with inputs := s.inputs.tail } = .ok m)

/-- R55: no step without reset changes the program, so every fetch at one index returns the same word. -/
def Obligations.ProgramIsNeverWritten : Prop :=
  ∀ (k : Nat) (s t : State), (∀ j, j < k → (s.pinsAt j).rst = false) → Sys2Proof.core.run k s = .next t →
    t.prog = s.prog

/-! ### Reset, the invariant, and whole runs -/

/-- R33: the state after reset: the five registers, the control state, the empty stack, and every physical slot at its
unspecified power-up word, a free value (decisions D7, D14; log entry 4). -/
def Obligations.ResetValues : Prop :=
  State.reset.size = 0#11 ∧ State.reset.ip = 0#64 ∧ State.reset.halted = false ∧ State.reset.faulted = false ∧
  State.reset.err = 0#3 ∧ State.reset.control = some .running ∧ State.reset.dumpValue = [] ∧
  ∀ i, State.reset.slot i = Config.ramPowerUp i

/-- The reset state satisfies the invariant. -/
def Obligations.ResetStateIsAdmitted : Prop := State.reset.Inv

/-- R34: "every step takes an admitted state to an admitted state"; with it the RAM keeps its canonical form, every live
slot stays written, and a changed program waits only behind a run that has ended. -/
def Obligations.EveryStepKeepsTheInvariant : Prop :=
  ∀ s t : State, s.Inv → step s = .next t → t.Inv

/-- R16: the content of a dead slot never reaches a live slot, `size`, `ip`, `halted`, `faulted` or `err`, over any
number of steps. -/
def Obligations.DeadSlotsAreNeverSeen : Prop :=
  ∀ (k : Nat) (s s' t : State), State.SameLive s s' → Sys2Proof.core.run k s = .next t →
    ∃ t', Sys2Proof.core.run k s' = .next t' ∧ State.SameLive t t' ∧ t'.result = t.result

/-- R108, R142: every run ends, under the fairness premise that the host keeps stepping. From an admitted state, `n` edges
at which the host neither resets nor changes the program end the run as soon as `PLEN - ip + 1` of them have
`step_en = 1`, however many holds lie between. -/
def Obligations.EveryRunEnds : Prop :=
  ∀ (n : Nat) (s : State), s.Inv → (∀ k, k < n → (s.pinsAt k).keepsRun = true) →
    s.prog.length - s.ip.toNat + 1 ≤ s.enabledEdges n →
    ∃ t, Sys2Proof.core.run n s = .next t ∧ t.terminal = true

/-- R142, R132: the host may hold for ever. A machine whose host has left `step_en` and `rst` low stays as it is over any
number of edges, ended or not; and one whose host has left `rst` high stays in the reset state. -/
def Obligations.HeldForEverNeverMoves : Prop :=
  ∀ (k : Nat) (s : State), s.inputs = [] →
    (s.idle.rst = false → s.idle.stepEn = false → Sys2Proof.core.run k s = .next s) ∧
    (s.idle.rst = true → s.nextProg = none →
      Sys2Proof.core.run (k + 1) s =
        .next { s with size := 0#11, ip := 0#64, halted := false, faulted := false, err := 0#3 })

/-- R107, R105: a run that has ended keeps its result, however many edges follow without reset, whatever the host does
with `step_en` and with the program memory at them. -/
def Obligations.EndedRunsKeepTheirResult : Prop :=
  ∀ (k : Nat) (s : State), s.Inv → s.terminal = true → (∀ j, j < k → (s.pinsAt j).rst = false) →
    ∃ t, Sys2Proof.core.run k s = .next t ∧ t.result = s.result ∧ t.stack = s.stack

/-- R12: no partial side effects: from an admitted state the machine never stops, unless the host breaks a duty of R137 (a
program too long at a reset, or a program changed during a run); every step of it is a next state. -/
def Obligations.AdmittedStatesAlwaysStep : Prop :=
  ∀ s : State, s.Inv →
    (s.pins.rst = true → ∀ p, s.pins.newProg.or s.nextProg = some p → p.length < 2 ^ 64) →
    (s.pins.rst = false → s.terminal = false → s.pins.newProg = none) → ∃ t, step s = .next t

/-! ### The stack RAM and the observer -/

/-- R50: a read returns the value of the latest earlier write to the same location, and a write leaves every other
location alone; the canonical form is kept. -/
def Obligations.StackRamReadsTheLatestWrite : Prop :=
  ∀ (m : Memory) (i j : Nat) (v : Word),
    Memory.read (Memory.write m i v) i = v ∧
    (j ≠ i → Memory.read (Memory.write m i v) j = Memory.read m j) ∧
    (Memory.wf m → i < 1024 → Memory.wf (Memory.write m i v))

/-- R123: `DumpValue` is the sequence of the live slots, bottom first. Where `size > 1024` the answer is the model's
choice, log entry 25. -/
def Obligations.DumpValueIsTheLiveStack : Prop :=
  ∀ s : State, s.dumpValue.length = s.size.toNat ∧ ∀ i, i < s.size.toNat → s.dumpValue[i]? = some (s.slot i)

/-- R124: the observer port gives `DumpValue` one element at a time: `dbg_live` says whether the slot is live, and in a
period in which no Step happens `dbg_val` of a live slot is the element of that index. Where `size > 1024` the
answer is the model's choice, log entry 25. -/
def Obligations.ObserverPortGivesTheDump : Prop :=
  ∀ (s : State) (idx : BitVec 10),
    ((s.outputs idx).dbgLive = true ↔ idx.toNat < s.size.toNat) ∧
    ((s.pins.stepEn = false ∨ s.pins.rst = true ∨ s.halted = true ∨ s.faulted = true) →
      (s.outputs idx).dbgLive = true → s.dumpValue[idx.toNat]? = some (s.outputs idx).dbgVal)

/-- R31, R32: the status outputs are the registers, and the fetch address is always `ip`; on states that are not admitted
this is the model's choice, log entry 25. -/
def Obligations.StatusOutputsAreTheRegisters : Prop :=
  ∀ (s : State) (idx : BitVec 10),
    (s.outputs idx).imemAddr = s.ip ∧ (s.outputs idx).ipO = s.ip ∧ (s.outputs idx).haltedO = s.halted ∧
    (s.outputs idx).faultedO = s.faulted ∧ (s.outputs idx).errO = s.err ∧ (s.outputs idx).sizeO = s.size

/-- R126: the dump texts of `[3, 5, 7]` and of the empty stack, byte by byte (decision D20, vectors V-DUMP-1 and
V-DUMP-2). -/
def Obligations.DumpTextOfTheSourcesExamples : Prop :=
  dumpText [3#64, 5#64, 7#64] =
    [0x53#8, 0x74#8, 0x61#8, 0x63#8, 0x6B#8, 0x3A#8, 0x0A#8, 0x20#8, 0x20#8, 0x33#8, 0x0A#8, 0x20#8, 0x20#8, 0x35#8,
     0x0A#8, 0x20#8, 0x20#8, 0x37#8, 0x0A#8] ∧
  dumpText [] =
    [0x53#8, 0x74#8, 0x61#8, 0x63#8, 0x6B#8, 0x3A#8, 0x0A#8, 0x20#8, 0x20#8, 0x5B#8, 0x65#8, 0x6D#8, 0x70#8, 0x74#8,
     0x79#8, 0x5D#8, 0x0A#8]
end

