-- ==== Sys2Proof/Laws/Decode.lean ====
section
/-! SUPPORT. Fields of a packed word, and what the decoder answers for each kind number. -/

namespace Sys2Proof

/-- The bits of a packed word: the operand's below 64, the kind's from 64 on. -/
theorem getLsbD_packWord (k : BitVec 8) (n : Word) (i : Nat) :
    (packWord k n).getLsbD i = if i < 64 then n.getLsbD i else k.getLsbD (i - 64) := BitVec.getLsbD_append

@[simp] theorem kindField_packWord (k : BitVec 8) (n : Word) : kindField (packWord k n) = k := by
  apply BitVec.eq_of_getLsbD_eq
  intro i hi
  simp [kindField, getLsbD_packWord, hi]

@[simp] theorem operandField_packWord (k : BitVec 8) (n : Word) : operandField (packWord k n) = n := by
  apply BitVec.eq_of_getLsbD_eq
  intro i hi
  simp [operandField, getLsbD_packWord, hi]

theorem packWord_fields (w : InstrWord) : packWord (kindField w) (operandField w) = w := by
  apply BitVec.eq_of_getLsbD_eq
  intro i hi
  rw [getLsbD_packWord]
  split
  · rename_i h
    simp [operandField, h]
  · rename_i h
    have h8 : i - 64 < 8 := by omega
    have h64 : 64 + (i - 64) = i := by omega
    simp [kindField, h8, h64]

theorem decode_unknown {w : InstrWord} (h : 7 ≤ (kindField w).toNat) :
    decode w = .unknown (kindField w) (operandField w) := by
  unfold decode
  split <;> first | rfl | omega

/-- What a word's class says of its kind field: the inversion of the decoder. -/
theorem decode_cases (w : InstrWord) :
    (kindField w = 0#8 ∧ decode w = .push (operandField w)) ∨
    (kindField w = 1#8 ∧ decode w = .add (operandField w)) ∨
    (kindField w = 2#8 ∧ decode w = .sub (operandField w)) ∨
    (kindField w = 3#8 ∧ decode w = .mul (operandField w)) ∨
    (kindField w = 4#8 ∧ decode w = .div (operandField w)) ∨
    (kindField w = 5#8 ∧ decode w = .jump (operandField w)) ∨
    (kindField w = 6#8 ∧ decode w = .halt (operandField w)) ∨
    (7 ≤ (kindField w).toNat ∧ decode w = .unknown (kindField w) (operandField w)) := by
  by_cases h7 : 7 ≤ (kindField w).toNat
  · exact .inr (.inr (.inr (.inr (.inr (.inr (.inr ⟨h7, decode_unknown h7⟩))))))
  · have hk : kindField w = BitVec.ofNat 8 (kindField w).toNat := by simp
    unfold decode
    generalize hn : (kindField w).toNat = n at hk h7 ⊢
    have : n = 0 ∨ n = 1 ∨ n = 2 ∨ n = 3 ∨ n = 4 ∨ n = 5 ∨ n = 6 := by omega
    rcases this with rfl | rfl | rfl | rfl | rfl | rfl | rfl <;> simp [hk]

end Sys2Proof
end

