-- ==== Sys2Proof/Laws/State.lean ====
section
/-! SUPPORT. What each update of the state does to each field. -/

namespace Sys2Proof.Machine

/-! ### `State.tick` -/

@[simp] theorem State.tick_stack (s : State) : (s.tick).stack = s.stack := rfl
@[simp] theorem State.tick_size (s : State) : (s.tick).size = s.size := rfl
@[simp] theorem State.tick_ip (s : State) : (s.tick).ip = s.ip := rfl
@[simp] theorem State.tick_halted (s : State) : (s.tick).halted = s.halted := rfl
@[simp] theorem State.tick_faulted (s : State) : (s.tick).faulted = s.faulted := rfl
@[simp] theorem State.tick_err (s : State) : (s.tick).err = s.err := rfl
@[simp] theorem State.tick_prog (s : State) : (s.tick).prog = s.prog := rfl
@[simp] theorem State.tick_nextProg (s : State) : (s.tick).nextProg = s.nextProg := rfl
@[simp] theorem State.tick_inputs (s : State) : (s.tick).inputs = s.inputs.tail := rfl
@[simp] theorem State.tick_idle (s : State) : (s.tick).idle = s.idle := rfl

/-! ### `State.advanceIp` -/

@[simp] theorem State.advanceIp_stack (s : State) : (s.advanceIp).stack = s.stack := rfl
@[simp] theorem State.advanceIp_size (s : State) : (s.advanceIp).size = s.size := rfl
@[simp] theorem State.advanceIp_ip (s : State) : (s.advanceIp).ip = s.ip + 1#64 := rfl
@[simp] theorem State.advanceIp_halted (s : State) : (s.advanceIp).halted = s.halted := rfl
@[simp] theorem State.advanceIp_faulted (s : State) : (s.advanceIp).faulted = s.faulted := rfl
@[simp] theorem State.advanceIp_err (s : State) : (s.advanceIp).err = s.err := rfl
@[simp] theorem State.advanceIp_prog (s : State) : (s.advanceIp).prog = s.prog := rfl
@[simp] theorem State.advanceIp_nextProg (s : State) : (s.advanceIp).nextProg = s.nextProg := rfl
@[simp] theorem State.advanceIp_inputs (s : State) : (s.advanceIp).inputs = s.inputs := rfl
@[simp] theorem State.advanceIp_idle (s : State) : (s.advanceIp).idle = s.idle := rfl

/-! ### `State.takeFault` -/

@[simp] theorem State.takeFault_stack (s : State) (c : Cause) : (s.takeFault c).stack = s.stack := rfl
@[simp] theorem State.takeFault_size (s : State) (c : Cause) : (s.takeFault c).size = s.size := rfl
@[simp] theorem State.takeFault_ip (s : State) (c : Cause) : (s.takeFault c).ip = s.ip := rfl
@[simp] theorem State.takeFault_halted (s : State) (c : Cause) : (s.takeFault c).halted = s.halted := rfl
@[simp] theorem State.takeFault_faulted (s : State) (c : Cause) : (s.takeFault c).faulted = true := rfl
@[simp] theorem State.takeFault_err (s : State) (c : Cause) : (s.takeFault c).err = c.code := rfl
@[simp] theorem State.takeFault_prog (s : State) (c : Cause) : (s.takeFault c).prog = s.prog := rfl
@[simp] theorem State.takeFault_nextProg (s : State) (c : Cause) : (s.takeFault c).nextProg = s.nextProg := rfl
@[simp] theorem State.takeFault_inputs (s : State) (c : Cause) : (s.takeFault c).inputs = s.inputs := rfl
@[simp] theorem State.takeFault_idle (s : State) (c : Cause) : (s.takeFault c).idle = s.idle := rfl

/-! ### `State.withFault` -/

@[simp] theorem State.withFault_stack (s : State) (c : BitVec 3) : (s.withFault c).stack = s.stack := rfl
@[simp] theorem State.withFault_size (s : State) (c : BitVec 3) : (s.withFault c).size = s.size := rfl
@[simp] theorem State.withFault_ip (s : State) (c : BitVec 3) : (s.withFault c).ip = s.ip := rfl
@[simp] theorem State.withFault_halted (s : State) (c : BitVec 3) : (s.withFault c).halted = s.halted := rfl
@[simp] theorem State.withFault_faulted (s : State) (c : BitVec 3) : (s.withFault c).faulted = true := rfl
@[simp] theorem State.withFault_err (s : State) (c : BitVec 3) : (s.withFault c).err = c := rfl
@[simp] theorem State.withFault_prog (s : State) (c : BitVec 3) : (s.withFault c).prog = s.prog := rfl
@[simp] theorem State.withFault_nextProg (s : State) (c : BitVec 3) : (s.withFault c).nextProg = s.nextProg := rfl
@[simp] theorem State.withFault_inputs (s : State) (c : BitVec 3) : (s.withFault c).inputs = s.inputs := rfl
@[simp] theorem State.withFault_idle (s : State) (c : BitVec 3) : (s.withFault c).idle = s.idle := rfl

/-! ### `State.clear` -/

@[simp] theorem State.clear_stack (s : State) : (s.clear).stack = s.stack := rfl
@[simp] theorem State.clear_size (s : State) : (s.clear).size = 0#11 := rfl
@[simp] theorem State.clear_ip (s : State) : (s.clear).ip = 0#64 := rfl
@[simp] theorem State.clear_halted (s : State) : (s.clear).halted = false := rfl
@[simp] theorem State.clear_faulted (s : State) : (s.clear).faulted = false := rfl
@[simp] theorem State.clear_err (s : State) : (s.clear).err = 0#3 := rfl
@[simp] theorem State.clear_prog (s : State) : (s.clear).prog = s.prog := rfl
@[simp] theorem State.clear_nextProg (s : State) : (s.clear).nextProg = s.nextProg := rfl
@[simp] theorem State.clear_inputs (s : State) : (s.clear).inputs = s.inputs := rfl
@[simp] theorem State.clear_idle (s : State) : (s.clear).idle = s.idle := rfl

/-! ### `State.writeStack` -/

@[simp] theorem State.writeStack_stack (s : State) (i : Nat) (v : Word) (n : BitVec 11) : (s.writeStack i v n).stack = Memory.write s.stack i v := rfl
@[simp] theorem State.writeStack_size (s : State) (i : Nat) (v : Word) (n : BitVec 11) : (s.writeStack i v n).size = n := rfl
@[simp] theorem State.writeStack_ip (s : State) (i : Nat) (v : Word) (n : BitVec 11) : (s.writeStack i v n).ip = s.ip := rfl
@[simp] theorem State.writeStack_halted (s : State) (i : Nat) (v : Word) (n : BitVec 11) : (s.writeStack i v n).halted = s.halted := rfl
@[simp] theorem State.writeStack_faulted (s : State) (i : Nat) (v : Word) (n : BitVec 11) : (s.writeStack i v n).faulted = s.faulted := rfl
@[simp] theorem State.writeStack_err (s : State) (i : Nat) (v : Word) (n : BitVec 11) : (s.writeStack i v n).err = s.err := rfl
@[simp] theorem State.writeStack_prog (s : State) (i : Nat) (v : Word) (n : BitVec 11) : (s.writeStack i v n).prog = s.prog := rfl
@[simp] theorem State.writeStack_nextProg (s : State) (i : Nat) (v : Word) (n : BitVec 11) : (s.writeStack i v n).nextProg = s.nextProg := rfl
@[simp] theorem State.writeStack_inputs (s : State) (i : Nat) (v : Word) (n : BitVec 11) : (s.writeStack i v n).inputs = s.inputs := rfl
@[simp] theorem State.writeStack_idle (s : State) (i : Nat) (v : Word) (n : BitVec 11) : (s.writeStack i v n).idle = s.idle := rfl

/-! ### `State.pushed` -/

@[simp] theorem State.pushed_stack (s : State) (v : Word) : (s.pushed v).stack = Memory.write s.stack s.size.toNat v := rfl
@[simp] theorem State.pushed_size (s : State) (v : Word) : (s.pushed v).size = s.size + 1#11 := rfl
@[simp] theorem State.pushed_ip (s : State) (v : Word) : (s.pushed v).ip = s.ip := rfl
@[simp] theorem State.pushed_halted (s : State) (v : Word) : (s.pushed v).halted = s.halted := rfl
@[simp] theorem State.pushed_faulted (s : State) (v : Word) : (s.pushed v).faulted = s.faulted := rfl
@[simp] theorem State.pushed_err (s : State) (v : Word) : (s.pushed v).err = s.err := rfl
@[simp] theorem State.pushed_prog (s : State) (v : Word) : (s.pushed v).prog = s.prog := rfl
@[simp] theorem State.pushed_nextProg (s : State) (v : Word) : (s.pushed v).nextProg = s.nextProg := rfl
@[simp] theorem State.pushed_inputs (s : State) (v : Word) : (s.pushed v).inputs = s.inputs := rfl
@[simp] theorem State.pushed_idle (s : State) (v : Word) : (s.pushed v).idle = s.idle := rfl

/-! ### `State.combined` -/

@[simp] theorem State.combined_stack (s : State) (r : Word) : (s.combined r).stack = Memory.write s.stack (s.size.toNat - 2) r := rfl
@[simp] theorem State.combined_size (s : State) (r : Word) : (s.combined r).size = s.size - 1#11 := rfl
@[simp] theorem State.combined_ip (s : State) (r : Word) : (s.combined r).ip = s.ip := rfl
@[simp] theorem State.combined_halted (s : State) (r : Word) : (s.combined r).halted = s.halted := rfl
@[simp] theorem State.combined_faulted (s : State) (r : Word) : (s.combined r).faulted = s.faulted := rfl
@[simp] theorem State.combined_err (s : State) (r : Word) : (s.combined r).err = s.err := rfl
@[simp] theorem State.combined_prog (s : State) (r : Word) : (s.combined r).prog = s.prog := rfl
@[simp] theorem State.combined_nextProg (s : State) (r : Word) : (s.combined r).nextProg = s.nextProg := rfl
@[simp] theorem State.combined_inputs (s : State) (r : Word) : (s.combined r).inputs = s.inputs := rfl
@[simp] theorem State.combined_idle (s : State) (r : Word) : (s.combined r).idle = s.idle := rfl

/-! ### `State.supplied` -/

@[simp] theorem State.supplied_stack (s : State) (q : Option Program) : (s.supplied q).stack = s.stack := rfl
@[simp] theorem State.supplied_size (s : State) (q : Option Program) : (s.supplied q).size = s.size := rfl
@[simp] theorem State.supplied_ip (s : State) (q : Option Program) : (s.supplied q).ip = s.ip := rfl
@[simp] theorem State.supplied_halted (s : State) (q : Option Program) : (s.supplied q).halted = s.halted := rfl
@[simp] theorem State.supplied_faulted (s : State) (q : Option Program) : (s.supplied q).faulted = s.faulted := rfl
@[simp] theorem State.supplied_err (s : State) (q : Option Program) : (s.supplied q).err = s.err := rfl
@[simp] theorem State.supplied_prog (s : State) (q : Option Program) : (s.supplied q).prog = s.prog := rfl
@[simp] theorem State.supplied_nextProg (s : State) (q : Option Program) : (s.supplied q).nextProg = q.or s.nextProg := rfl
@[simp] theorem State.supplied_inputs (s : State) (q : Option Program) : (s.supplied q).inputs = s.inputs := rfl
@[simp] theorem State.supplied_idle (s : State) (q : Option Program) : (s.supplied q).idle = s.idle := rfl
@[simp] theorem State.supplied_none (s : State) : s.supplied none = s := rfl

/-! ### `State.placeWord` -/

@[simp] theorem State.placeWord_stack (s : State) (w : InstrWord) : (s.placeWord w).stack = s.stack := rfl
@[simp] theorem State.placeWord_size (s : State) (w : InstrWord) : (s.placeWord w).size = s.size := rfl
@[simp] theorem State.placeWord_ip (s : State) (w : InstrWord) : (s.placeWord w).ip = s.ip := rfl
@[simp] theorem State.placeWord_halted (s : State) (w : InstrWord) : (s.placeWord w).halted = false := rfl
@[simp] theorem State.placeWord_faulted (s : State) (w : InstrWord) : (s.placeWord w).faulted = false := rfl
@[simp] theorem State.placeWord_err (s : State) (w : InstrWord) : (s.placeWord w).err = 0#3 := rfl
@[simp] theorem State.placeWord_prog (s : State) (w : InstrWord) : (s.placeWord w).prog = Program.withWord s.prog s.ip.toNat w := rfl
@[simp] theorem State.placeWord_nextProg (s : State) (w : InstrWord) : (s.placeWord w).nextProg = s.nextProg := rfl
@[simp] theorem State.placeWord_inputs (s : State) (w : InstrWord) : (s.placeWord w).inputs = enableNextEdge s.idle s.inputs := rfl
@[simp] theorem State.placeWord_idle (s : State) (w : InstrWord) : (s.placeWord w).idle = s.idle := rfl

end Sys2Proof.Machine
end

