-- ==== Sys2Proof/Laws/Memory.lean ====
section
/-! SUPPORT. The stack RAM: a read after a write, and the canonical form. -/

namespace Sys2Proof.Machine

theorem Memory.find?_write_same (m : Memory) (i : Nat) (v : Word) :
    Memory.find? (Memory.write m i v) i = some v := by
  induction m with
  | nil => simp [Memory.write, Memory.find?]
  | cons c m ih =>
    obtain ⟨j, w⟩ := c
    simp only [Memory.write]
    split
    · simp [Memory.find?]
    · split
      · simp [Memory.find?]
      · simp [Memory.find?, *]

theorem Memory.find?_write_other (m : Memory) {i j : Nat} (v : Word) (h : j ≠ i) :
    Memory.find? (Memory.write m i v) j = Memory.find? m j := by
  induction m with
  | nil => simp [Memory.write, Memory.find?, h]
  | cons c m ih =>
    obtain ⟨k, w⟩ := c
    simp only [Memory.write]
    split
    · simp [Memory.find?, h]
    · split
      · rename_i hik
        subst hik
        simp [Memory.find?, h]
      · simp [Memory.find?, ih]

/-- A listed cell of a written RAM is the written one or was listed before. -/
theorem Memory.mem_write {m : Memory} {i : Nat} {v : Word} {c : Nat × Word} (h : c ∈ Memory.write m i v) :
    c = (i, v) ∨ c ∈ m := by
  induction m with
  | nil => simpa [Memory.write] using h
  | cons d m ih =>
    obtain ⟨j, w⟩ := d
    simp only [Memory.write] at h
    split at h
    · simpa using h
    · split at h
      · rcases List.mem_cons.mp h with h | h
        · exact .inl h
        · exact .inr (List.mem_cons_of_mem _ h)
      · rcases List.mem_cons.mp h with h | h
        · exact .inr (h ▸ List.mem_cons_self)
        · rcases ih h with h | h
          · exact .inl h
          · exact .inr (List.mem_cons_of_mem _ h)

/-- Every write of an existing slot keeps the canonical form. -/
theorem Memory.wf_write {m : Memory} {i : Nat} (v : Word) (h : Memory.wf m) (hi : i < 1024) :
    Memory.wf (Memory.write m i v) := by
  obtain ⟨hp, hb⟩ := h
  refine ⟨?_, fun c hc => ?_⟩
  · clear hb
    induction m with
    | nil => simp [Memory.write]
    | cons d m ih =>
      obtain ⟨j, w⟩ := d
      obtain ⟨hj, hm⟩ := List.pairwise_cons.mp hp
      simp only [Memory.write]
      split
      · rename_i hij
        refine List.pairwise_cons.mpr ⟨fun c hc => ?_, hp⟩
        rcases List.mem_cons.mp hc with rfl | hc
        · exact hij
        · exact Nat.lt_trans hij (hj c hc)
      · split
        · rename_i hij
          subst hij
          exact List.pairwise_cons.mpr ⟨hj, hm⟩
        · refine List.pairwise_cons.mpr ⟨fun c hc => ?_, ih hm⟩
          rcases Memory.mem_write hc with rfl | hc
          · show j < i
            omega
          · exact hj c hc
  · rcases Memory.mem_write hc with rfl | hc
    · exact hi
    · exact hb c hc

theorem Memory.wf_nil : Memory.wf [] := ⟨List.Pairwise.nil, by simp⟩

theorem Memory.read_write_same (m : Memory) (i : Nat) (v : Word) : Memory.read (Memory.write m i v) i = v := by
  simp [Memory.read, Memory.find?_write_same]

theorem Memory.read_write_other (m : Memory) {i j : Nat} (v : Word) (h : j ≠ i) :
    Memory.read (Memory.write m i v) j = Memory.read m j := by
  simp [Memory.read, Memory.find?_write_other m v h]

/-- A slot that has been written since power-up is still so after any write. -/
theorem Memory.find?_write_isSome {m : Memory} {i j : Nat} (v : Word) (h : (Memory.find? m j).isSome = true) :
    (Memory.find? (Memory.write m i v) j).isSome = true := by
  by_cases hji : j = i
  · subst hji
    simp [Memory.find?_write_same]
  · rwa [Memory.find?_write_other m v hji]

/-! ### Slots of a state -/

theorem State.slot_writeStack_same (s : State) (i : Nat) (v : Word) (n : BitVec 11) :
    (s.writeStack i v n).slot i = v := Memory.read_write_same s.stack i v

theorem State.slot_writeStack_other (s : State) {i j : Nat} (v : Word) (n : BitVec 11) (h : j ≠ i) :
    (s.writeStack i v n).slot j = s.slot j := Memory.read_write_other s.stack v h

theorem State.slot_pushed_same (s : State) (v : Word) : (s.pushed v).slot s.size.toNat = v :=
  State.slot_writeStack_same s s.size.toNat v (s.size + 1#11)

theorem State.slot_pushed_other (s : State) (v : Word) {i : Nat} (h : i ≠ s.size.toNat) :
    (s.pushed v).slot i = s.slot i := State.slot_writeStack_other s v (s.size + 1#11) h

theorem State.slot_combined_same (s : State) (r : Word) : (s.combined r).slot (s.size.toNat - 2) = r :=
  State.slot_writeStack_same s (s.size.toNat - 2) r (s.size - 1#11)

theorem State.slot_combined_other (s : State) (r : Word) {i : Nat} (h : i ≠ s.size.toNat - 2) :
    (s.combined r).slot i = s.slot i := State.slot_writeStack_other s r (s.size - 1#11) h

theorem State.size_pushed (s : State) (v : Word) (h : s.size.toNat < 1024) :
    (s.pushed v).size.toNat = s.size.toNat + 1 := by
  simp [BitVec.toNat_add]
  omega

theorem State.size_combined (s : State) (r : Word) (h : 2 ≤ s.size.toNat) :
    (s.combined r).size.toNat + 1 = s.size.toNat := by
  have := s.size.isLt
  simp [BitVec.toNat_sub]
  omega

@[simp] theorem State.slot_tick (s : State) (i : Nat) : s.tick.slot i = s.slot i := rfl

@[simp] theorem State.slot_advanceIp (s : State) (i : Nat) : s.advanceIp.slot i = s.slot i := rfl

@[simp] theorem State.slot_takeFault (s : State) (c : Cause) (i : Nat) : (s.takeFault c).slot i = s.slot i := rfl

@[simp] theorem State.slot_clear (s : State) (i : Nat) : s.clear.slot i = s.slot i := rfl

end Sys2Proof.Machine
end

