-- ==== Sys2Proof/Laws/Execute.lean ====
section
/-! SUPPORT. What Execute, the sequencer's end of an instruction, and `exec` can do, each said once. -/

namespace Sys2Proof.Machine

theorem State.stackFull_iff (s : State) : s.stackFull = true ↔ s.size.toNat = 1024 := by simp [State.stackFull]

theorem State.stackShort_iff (s : State) : s.stackShort = true ↔ s.size.toNat < 2 := by simp [State.stackShort]

theorem divisorIsZero_iff (b : Word) : divisorIsZero b = true ↔ b = 0#64 := by simp [divisorIsZero]

/-- Push either overflows, exactly on a full stack, or pushes. -/
theorem executePush_cases (n : Word) (s : State) :
    (s.size.toNat = 1024 ∧ executePush n s = .error .stackOverflow) ∨
    (s.size.toNat ≠ 1024 ∧ executePush n s = .ok (s.pushed n)) := by
  by_cases h : s.size.toNat = 1024
  · exact .inl ⟨h, by simp [executePush, State.stackFull, h]⟩
  · exact .inr ⟨h, by simp [executePush, State.stackFull, h]⟩

/-- The shape of Add, Sub and Mul either underflows, exactly below two elements, or combines. -/
theorem executeBinary_cases (f : Word → Word → Word) (s : State) :
    (s.size.toNat < 2 ∧ executeBinary f s = .error .stackUnderflow) ∨
    (2 ≤ s.size.toNat ∧ executeBinary f s = .ok (s.combined (f s.leftOperand s.rightOperand))) := by
  by_cases h : s.size.toNat < 2
  · exact .inl ⟨h, by simp [executeBinary, State.stackShort, h]⟩
  · exact .inr ⟨by omega, by simp [executeBinary, State.stackShort, h]⟩

/-- The shape of Div underflows below two elements, else divides by zero on a zero top, else combines. -/
theorem executeDivision_cases (f : Word → Word → Word) (s : State) :
    (s.size.toNat < 2 ∧ executeDivision f s = .error .stackUnderflow) ∨
    (2 ≤ s.size.toNat ∧ s.rightOperand = 0#64 ∧ executeDivision f s = .error .divideByZero) ∨
    (2 ≤ s.size.toNat ∧ s.rightOperand ≠ 0#64 ∧
      executeDivision f s = .ok (s.combined (f s.leftOperand s.rightOperand))) := by
  by_cases h : s.size.toNat < 2
  · exact .inl ⟨h, by simp [executeDivision, State.stackShort, h]⟩
  · by_cases hb : s.rightOperand = 0#64
    · exact .inr (.inl ⟨by omega, hb, by simp [executeDivision, State.stackShort, divisorIsZero, h, hb]⟩)
    · exact .inr (.inr ⟨by omega, hb, by simp [executeDivision, State.stackShort, divisorIsZero, h, hb]⟩)

/-- Everything a successful Execute can have done: a push on a stack that is not full, a combination of the top two of
at least two elements, or a halt. -/
theorem execute_ok_cases {i : Instr} {s m : State} (h : execute i s = .ok m) :
    (∃ n, i = .push n ∧ s.size.toNat ≠ 1024 ∧ m = s.pushed n) ∨
    (∃ r, 2 ≤ s.size.toNat ∧ m = s.combined r ∧
      (i.kind = .add ∨ i.kind = .sub ∨ i.kind = .mul ∨ i.kind = .div)) ∨
    (i.kind = .halt ∧ m = { s with halted := true }) := by
  cases i with
  | push n =>
    rcases executePush_cases n s with ⟨_, he⟩ | ⟨hs, he⟩
    · simp [execute, he] at h
    · simp only [execute, he, Executed.ok.injEq] at h
      exact .inl ⟨n, rfl, hs, h.symm⟩
  | add n =>
    rcases executeBinary_cases fAdd s with ⟨_, he⟩ | ⟨hs, he⟩
    · simp [execute, executeAdd, he] at h
    · simp only [execute, executeAdd, he, Executed.ok.injEq] at h
      exact .inr (.inl ⟨_, hs, h.symm, .inl rfl⟩)
  | sub n =>
    rcases executeBinary_cases fSub s with ⟨_, he⟩ | ⟨hs, he⟩
    · simp [execute, executeSub, he] at h
    · simp only [execute, executeSub, he, Executed.ok.injEq] at h
      exact .inr (.inl ⟨_, hs, h.symm, .inr (.inl rfl)⟩)
  | mul n =>
    rcases executeBinary_cases fMul s with ⟨_, he⟩ | ⟨hs, he⟩
    · simp [execute, executeMul, he] at h
    · simp only [execute, executeMul, he, Executed.ok.injEq] at h
      exact .inr (.inl ⟨_, hs, h.symm, .inr (.inr (.inl rfl))⟩)
  | div n =>
    rcases executeDivision_cases fDiv s with ⟨_, he⟩ | ⟨_, _, he⟩ | ⟨hs, _, he⟩
    · simp [execute, executeDiv, he] at h
    · simp [execute, executeDiv, he] at h
    · simp only [execute, executeDiv, he, Executed.ok.injEq] at h
      exact .inr (.inl ⟨_, hs, h.symm, .inr (.inr (.inr rfl))⟩)
  | jump n => simp [execute, executeJump] at h
  | halt n =>
    simp only [execute, executeHalt, Executed.ok.injEq] at h
    exact .inr (.inr ⟨rfl, h.symm⟩)
  | unknown k n => simp [execute, executeUnknown] at h

theorem withSlots_of_le {s : State} {o : Host.Outcome State Fault Refusal} (h : s.size.toNat ≤ 1024) :
    withSlots s o = o := by simp [withSlots, h]

theorem withSlots_of_gt {s : State} {o : Host.Outcome State Fault Refusal} (h : 1024 < s.size.toNat) :
    withSlots s o = .fault .noSuchSlot := by simp [withSlots, Nat.not_le.mpr h]

/-- Every meaning is Execute followed by the sequencer's end of the instruction, where the slots exist. -/
theorem exec_eq_retire {i : Instr} {s : State} (h : s.size.toNat ≤ 1024) : exec i s = retire s (execute i s) := by
  cases i with
  | push n => exact withSlots_of_le h
  | add n => exact withSlots_of_le h
  | sub n => exact withSlots_of_le h
  | mul n => exact withSlots_of_le h
  | div n => exact withSlots_of_le h
  | jump n => rfl
  | halt n => rfl
  | unknown k n => rfl

/-- A meaning that answers a next state has executed successfully or has taken one fault. -/
theorem retire_next {s t : State} {x : Executed} (h : retire s x = .next t) :
    (∃ m, x = .ok m ∧ t = m.advanceIp) ∨ ∃ e, x = .error e ∧ t = s.takeFault (.execute e) := by
  cases x with
  | ok m =>
    simp only [retire, Host.Outcome.next.injEq] at h
    exact .inl ⟨m, rfl, h.symm⟩
  | error e =>
    simp only [retire, Host.Outcome.next.injEq] at h
    exact .inr ⟨e, rfl, h.symm⟩

end Sys2Proof.Machine
end

