-- ==== Sys2Proof/Laws/PerInstr.lean ====
section
/-! SUPPORT. Statements about each instruction as syntax, one lemma for each constructor. -/

namespace Sys2Proof.Laws

/-- The word of an instruction holds its kind number in bits 71:64 and its operand in bits 63:0 (30_encoding.md R59). -/
def EncodedFields.Statement (i : Instr) : Prop :=
  kindField (encode i) = i.kindCode ∧ operandField (encode i) = i.operand

theorem EncodedFields.ofEncode (i : Instr) : EncodedFields.Statement i :=
  ⟨kindField_packWord i.kindCode i.operand, operandField_packWord i.kindCode i.operand⟩

theorem EncodedFields.push (n : Word) : EncodedFields.Statement (.push n) := EncodedFields.ofEncode _
theorem EncodedFields.add (n : Word) : EncodedFields.Statement (.add n) := EncodedFields.ofEncode _
theorem EncodedFields.sub (n : Word) : EncodedFields.Statement (.sub n) := EncodedFields.ofEncode _
theorem EncodedFields.mul (n : Word) : EncodedFields.Statement (.mul n) := EncodedFields.ofEncode _
theorem EncodedFields.div (n : Word) : EncodedFields.Statement (.div n) := EncodedFields.ofEncode _
theorem EncodedFields.jump (n : Word) : EncodedFields.Statement (.jump n) := EncodedFields.ofEncode _
theorem EncodedFields.halt (n : Word) : EncodedFields.Statement (.halt n) := EncodedFields.ofEncode _
theorem EncodedFields.unknown (k : BitVec 8) (n : Word) : EncodedFields.Statement (.unknown k n) :=
  EncodedFields.ofEncode _

end Sys2Proof.Laws
end

