-- ==== Sys2Proof/Laws/Step.lean ====
section
/-! SUPPORT. What a clock edge can do, said once. -/

namespace Sys2Proof.Machine

/-- The admitted state space, as the conjunction the spec gives (10_state.md R34, 00_scope.md R7). -/
theorem State.admitted_iff (s : State) :
    s.admitted = true ↔
      s.size.toNat ≤ 1024 ∧ s.ip.toNat ≤ s.prog.length ∧ s.err.toNat ≤ 5 ∧ (s.err = 0#3 ↔ s.faulted = false) ∧
        ¬ (s.halted = true ∧ s.faulted = true) ∧ s.prog.length < 2 ^ 64 := by
  have key : (decide (s.err = 0#3) == !s.faulted) = true ↔ (s.err = 0#3 ↔ s.faulted = false) := by
    by_cases h : s.err = 0#3 <;> cases s.faulted <;> simp [h]
  unfold State.admitted
  rw [Bool.and_eq_true, Bool.and_eq_true, Bool.and_eq_true, Bool.and_eq_true, Bool.and_eq_true, key]
  simp only [Program.fits, decide_eq_true_eq, Bool.not_eq_true', Bool.and_eq_false_iff, not_and, Bool.not_eq_true]
  constructor
  · rintro ⟨⟨⟨⟨⟨h1, h2⟩, h3⟩, h4⟩, h5⟩, h6⟩
    exact ⟨h1, h2, h3, h4, fun hh => h5.resolve_left (by simp [hh]), h6⟩
  · rintro ⟨h1, h2, h3, h4, h5, h6⟩
    refine ⟨⟨⟨⟨⟨h1, h2⟩, h3⟩, h4⟩, ?_⟩, h6⟩
    cases hh : s.halted
    · exact .inl rfl
    · exact .inr (h5 hh)

@[simp] theorem State.admitted_tick (s : State) : s.tick.admitted = s.admitted := rfl

@[simp] theorem State.terminal_tick (s : State) : s.tick.terminal = s.terminal := rfl

/-- A word in range is what the program port delivers. -/
theorem State.imemData_of_getElem? {s : State} {w : InstrWord} (h : s.prog[s.ip.toNat]? = some w) :
    s.imemData = w := by simp [State.imemData, h]

theorem State.imemOob_false_iff (s : State) : s.imemOob = false ↔ ∃ w, s.prog[s.ip.toNat]? = some w := by
  rw [State.imemOob, decide_eq_false_iff_not, Nat.not_le]
  exact ⟨fun h => ⟨_, List.getElem?_eq_getElem h⟩, fun ⟨_, h⟩ => (List.getElem?_eq_some_iff.mp h).1⟩

@[simp] theorem State.admitted_supplied (s : State) (q : Option Program) : (s.supplied q).admitted = s.admitted := rfl

@[simp] theorem State.terminal_supplied (s : State) (q : Option Program) : (s.supplied q).terminal = s.terminal := rfl

theorem HostInputs.breaksRun_false_iff (p : HostInputs) (s : State) :
    p.breaksRun s = false ↔ (s.terminal = false → p.newProg = none) := by
  cases ht : s.terminal <;> simp [HostInputs.breaksRun, ht]

/-- Everything a clock edge that answers a next state can have been: a reset that keeps the program, a reset with a new
program, a hold, a terminal state's hold, a fetch out of range, or an instruction. -/
theorem step_cases {s t : State} (h : step s = .next t) :
    (s.pins.rst = true ∧ s.pins.newProg.or s.nextProg = none ∧ t = s.tick.clear) ∨
    (∃ p, s.pins.rst = true ∧ s.pins.newProg.or s.nextProg = some p ∧ p.length < 2 ^ 64 ∧
      t = { s.tick.clear with prog := p, nextProg := none }) ∨
    (s.pins.rst = false ∧ (s.terminal = false → s.pins.newProg = none) ∧ s.pins.stepEn = false ∧
      t = s.tick.supplied s.pins.newProg) ∨
    (s.pins.rst = false ∧ s.pins.stepEn = true ∧ s.admitted = true ∧ s.terminal = true ∧
      t = s.tick.supplied s.pins.newProg) ∨
    (s.pins.rst = false ∧ s.pins.newProg = none ∧ s.pins.stepEn = true ∧ s.admitted = true ∧ s.terminal = false ∧
      s.prog.length ≤ s.ip.toNat ∧ t = s.tick.takeFault .fetchOutOfRange) ∨
    (∃ w, s.pins.rst = false ∧ s.pins.newProg = none ∧ s.pins.stepEn = true ∧ s.admitted = true ∧
      s.terminal = false ∧ s.prog[s.ip.toNat]? = some w ∧ exec (decode w) s.tick = .next t) := by
  unfold step clockEdge at h
  cases hr : s.pins.rst with
  | true =>
    simp only [hr, if_true, resetEdge, State.tick_nextProg] at h
    cases hp : s.pins.newProg.or s.nextProg with
    | none =>
      simp only [hp, Host.Outcome.next.injEq] at h
      exact .inl ⟨rfl, rfl, h.symm⟩
    | some p =>
      simp only [hp] at h
      split at h
      · rename_i hf
        simp only [Host.Outcome.next.injEq] at h
        exact .inr (.inl ⟨p, rfl, rfl, of_decide_eq_true hf, h.symm⟩)
      · cases h
  | false =>
    cases hb : s.pins.breaksRun s.tick with
    | true => simp [hr, hb] at h
    | false =>
      have hd : s.terminal = false → s.pins.newProg = none := (HostInputs.breaksRun_false_iff _ _).mp hb
      cases he : s.pins.stepEn with
      | false =>
        simp only [hr, hb, he, Bool.false_eq_true, if_false, Host.Outcome.next.injEq] at h
        exact .inr (.inr (.inl ⟨rfl, hd, rfl, h.symm⟩))
      | true =>
        cases ha : s.admitted with
        | false => simp [hr, hb, he, ha] at h
        | true =>
          simp only [hr, hb, he, ha, Bool.false_eq_true, if_false, if_true, State.admitted_tick, runEdge,
            State.terminal_supplied, State.terminal_tick] at h
          cases ht : s.terminal with
          | true =>
            simp only [ht, if_true, Host.Outcome.next.injEq] at h
            exact .inr (.inr (.inr (.inl ⟨rfl, rfl, rfl, rfl, h.symm⟩)))
          | false =>
            have hp := hd ht
            simp only [ht, hp, State.supplied_none, Bool.false_eq_true, if_false] at h
            cases ho : s.tick.imemOob with
            | true =>
              simp only [ho, if_true, Host.Outcome.next.injEq] at h
              have hle : s.prog.length ≤ s.ip.toNat := of_decide_eq_true ho
              exact .inr (.inr (.inr (.inr (.inl ⟨rfl, hp, rfl, rfl, rfl, hle, h.symm⟩))))
            | false =>
              simp only [ho, Bool.false_eq_true, if_false] at h
              obtain ⟨w, hw⟩ := (State.imemOob_false_iff s.tick).mp ho
              rw [State.imemData_of_getElem? hw] at h
              exact .inr (.inr (.inr (.inr (.inr ⟨w, rfl, hp, rfl, rfl, rfl, hw, h⟩))))

/-- The same, with the instruction's case taken apart: a successful Execute with `ip` advanced, or one fault. -/
theorem exec_next_cases {i : Instr} {s t : State} (hs : s.size.toNat ≤ 1024) (h : exec i s = .next t) :
    (∃ m, execute i s = .ok m ∧ t = m.advanceIp) ∨ ∃ e, execute i s = .error e ∧ t = s.takeFault (.execute e) :=
  retire_next (exec_eq_retire hs ▸ h)

end Sys2Proof.Machine
end

