-- ==== Sys2Proof/Laws/Run.lean ====
section
/-! SUPPORT. Runs of a machine, one edge at a time. -/

namespace Sys2Proof.Machine

/-! ### The host's pins along a run -/

@[simp] theorem State.pinsAt_zero (s : State) : s.pinsAt 0 = s.pins := by
  cases h : s.inputs <;> simp [State.pinsAt, State.pins, h]

@[simp] theorem State.pinsAt_tick (s : State) (k : Nat) : s.tick.pinsAt k = s.pinsAt (k + 1) := by
  cases h : s.inputs <;> simp [State.pinsAt, h]

/-- The pins along a run depend on the host's moves and levels only. -/
theorem State.pinsAt_congr {s t : State} (hi : t.inputs = s.inputs) (hl : t.idle = s.idle) (k : Nat) :
    t.pinsAt k = s.pinsAt k := by simp [State.pinsAt, hi, hl]

@[simp] theorem State.enabledEdges_zero (s : State) : s.enabledEdges 0 = 0 := rfl

/-- The next edge counts if it is enabled, and the others are those from the state after it. -/
theorem State.enabledEdges_succ (s : State) (n : Nat) :
    s.enabledEdges (n + 1) = s.tick.enabledEdges n + if s.pins.stepEn then 1 else 0 := by
  simp only [State.enabledEdges, List.range_succ_eq_map, List.countP_cons, State.pinsAt_zero, List.countP_map,
    Function.comp_def, State.pinsAt_tick]

/-- A machine whose host has no move left is at the levels the host left, and its pins stay there. -/
theorem State.pins_of_no_moves {s : State} (h : s.inputs = []) : s.pins = s.idle.toInputs := by simp [State.pins, h]

/-- Every edge uses up one move of the host and leaves its levels alone. -/
theorem step_host {s t : State} (h : step s = .next t) : t.inputs = s.inputs.tail ∧ t.idle = s.idle := by
  rcases step_cases h with ⟨-, -, rfl⟩ | ⟨p, -, -, -, rfl⟩ | ⟨-, -, -, rfl⟩ | ⟨-, -, -, -, rfl⟩ |
    ⟨-, -, -, -, -, -, rfl⟩ | ⟨w, -, -, -, ha, -, -, hx⟩
  any_goals exact ⟨rfl, rfl⟩
  rcases exec_next_cases (s := s.tick) ((State.admitted_iff s).mp ha).1 hx with ⟨m, hm, rfl⟩ | ⟨e, -, rfl⟩
  · rcases execute_ok_cases hm with ⟨n, -, -, rfl⟩ | ⟨r, -, rfl, -⟩ | ⟨-, rfl⟩ <;> exact ⟨rfl, rfl⟩
  · exact ⟨rfl, rfl⟩

/-- The pins of the edges after a step are those the state before it had in store. -/
theorem pinsAt_of_step {s t : State} (h : step s = .next t) (k : Nat) : t.pinsAt k = s.pinsAt (k + 1) :=
  (State.pinsAt_congr (s := s.tick) (step_host h).1 (step_host h).2 k).trans (State.pinsAt_tick s k)

/-! ### Runs -/

theorem coreRun_succ_of_next (M : Host.Core) {k : Nat} {s u : M.State} (h : M.step s = .next u) :
    M.run (k + 1) s = M.run k u := by simp [Host.Core.run, h]

theorem coreRun_succ_next (M : Host.Core) {k : Nat} {s t : M.State} (h : M.run (k + 1) s = .next t) :
    ∃ u, M.step s = .next u ∧ M.run k u = .next t := by
  simp only [Host.Core.run] at h
  split at h
  · rename_i u hu
    exact ⟨u, hu, h⟩
  · cases h
  · cases h

theorem run_zero (s : State) : Sys2Proof.core.run 0 s = .next s := rfl

/-- A run whose first edge answers a next state goes on from there. -/
theorem run_succ_of_next {k : Nat} {s u : State} (h : step s = .next u) :
    Sys2Proof.core.run (k + 1) s = Sys2Proof.core.run k u := coreRun_succ_of_next Sys2Proof.core h

/-- A run that reaches a next state took its first edge to one. -/
theorem run_succ_next {k : Nat} {s t : State} (h : Sys2Proof.core.run (k + 1) s = .next t) :
    ∃ u : State, step s = .next u ∧ Sys2Proof.core.run k u = .next t := coreRun_succ_next Sys2Proof.core h

end Sys2Proof.Machine
end

