-- ==== Sys2Proof/Tests/Slice0.lean ====
section
/-! SUPPORT. Small tests, with results from the spec's vectors (95_test_vectors.md), and for each statement with hypotheses a state that meets them. -/

namespace Sys2Proof.Tests

open Sys2Proof.Machine

/-! ### Helpers -/

/-- The Running state with the live stack `ws` (bottom first), `ip` and program given. -/
def running (ws : List Word) (ip : Nat) (prog : Program) : State :=
  { State.reset with
    stack := (List.range ws.length).zip ws, size := BitVec.ofNat 11 ws.length, ip := BitVec.ofNat 64 ip, prog := prog }

/-- The reset state with `n` in `size`. -/
def sized (n : Nat) : State := { State.reset with size := BitVec.ofNat 11 n }

/-- A full stack whose top element is `b`, the element below it `a`. -/
def fullWith (a b : Word) : State := { sized 1024 with stack := [(1022, a), (1023, b)] }

def faultedWith (s : State) (c : BitVec 3) : State := { s with faulted := true, err := c }

def withInputs (s : State) (ps : List HostInputs) : State := { s with inputs := ps }

def hold : HostInputs := { rst := false, stepEn := false, newProg := none }
def resetPin : HostInputs := { rst := true, stepEn := true, newProg := none }
def loadPin (rst : Bool) (p : Program) : HostInputs := { rst := rst, stepEn := true, newProg := some p }

/-- The live stack after an outcome's next state. -/
def stackAfter (o : Host.Outcome State Fault Refusal) : Option (List Word) := (nextOf? o).map State.dumpValue

/-- The five registers `(size, ip, halted, faulted, err)` after an outcome's next state. -/
def regsAfter (o : Host.Outcome State Fault Refusal) : Option (Nat × Nat × Bool × Bool × Nat) :=
  (nextOf? o).map (fun t => (t.size.toNat, t.ip.toNat, t.halted, t.faulted, t.err.toNat))

/-- The error of an Execute. -/
def errorOf : Executed → Option ErrorKind
  | .ok _ => none
  | .error e => some e

/-! ### WellFormed: an ill-formed term for each check -/

theorem test_wf_refuses_known_kind_as_unknown : (Instr.unknown 6#8 0#64).wf = false := by decide
theorem test_wf_accepts_unknown_kinds : (Instr.unknown 7#8 0#64).wf = true ∧ (Instr.unknown 255#8 1#64).wf = true := by
  decide
theorem test_fits_refuses_a_program_of_2_64_words (p : Program) (h : p.length = 2 ^ 64) : Program.fits p = false := by
  simp [Program.fits, h]
theorem test_fits_accepts_the_empty_program : Program.fits [] = true := by decide

/-! ### Decode: the encodings of 30_encoding.md R59, R60, written out bit by bit -/

theorem test_decode_push_bits :
    decode 0b000000000000000000000000000000000000000000000000000000000000000001000101#72 = .push 69#64 := by decide
theorem test_decode_add_bits :
    decode 0b000000010000000000000000000000000000000000000000000000000000000000000000#72 = .add 0#64 := by decide
theorem test_decode_sub_bits :
    decode 0b000000100000000000000000000000000000000000000000000000000000000000000000#72 = .sub 0#64 := by decide
theorem test_decode_mul_bits :
    decode 0b000000110000000000000000000000000000000000000000000000000000000000000000#72 = .mul 0#64 := by decide
theorem test_decode_div_bits :
    decode 0b000001000000000000000000000000000000000000000000000000000000000000000000#72 = .div 0#64 := by decide
theorem test_decode_jump_bits :
    decode 0b000001010000000000000000000000000000000000000000000000000000000000000011#72 = .jump 3#64 := by decide
theorem test_decode_halt_bits :
    decode 0b000001100000000000000000000000000000000000000000000000000000000000000001#72 = .halt 1#64 := by decide
theorem test_decode_unknown_bits :
    decode 0b100000000000000000000000000000000000000000000000000000000000000000000000#72 = .unknown 128#8 0#64 := by
  decide

/-- V-ENC-2, V-ENC-3, V-ENC-5, V-ENC-14, V-ENC-15. -/
theorem test_decode_vectors :
    decode 0x00FFFFFFFFFFFFFFFF#72 = .push (BitVec.ofInt 64 (-1)) ∧ decode 0x008000000000000000#72 = .push int64Min ∧
    (decode 0x01FFFFFFFFFFFFFFFF#72).kind = .add ∧ decode 0xFFFFFFFFFFFFFFFFFF#72 = .unknown 255#8 minusOne ∧
    decode 0x000000000000000000#72 = .push 0#64 := by decide
theorem test_decodeTableWord :
    decodeTableWord 72 0x060000000000000000 = some (.halt 0#64) ∧ decodeTableWord 80 0 = none := by decide
/-- The image bytes of `Push 420` and of `Halt` (95_test_vectors.md, encoding). -/
theorem test_image_bytes :
    programImage [0x0000000000000001A4#72, 0x060000000000000000#72] =
      [0#8, 0#8, 0#8, 0#8, 0#8, 0#8, 0#8, 1#8, 0xA4#8, 6#8, 0#8, 0#8, 0#8, 0#8, 0#8, 0#8, 0#8, 0#8] := by decide
theorem test_image_truncated :
    (match programOfImage [0#8, 0#8, 0#8, 0#8, 0#8, 0#8, 0#8, 1#8] with
     | .ok _ => false | .error .truncatedRecord => true) = true := by decide
/-- `Push -7` and `.word 0x070000000000000000`, as 30_encoding.md R66 spells them. -/
theorem test_listing :
    listingText (.push (BitVec.ofInt 64 (-7))) = [0x50#8, 0x75#8, 0x73#8, 0x68#8, 0x20#8, 0x2D#8, 0x37#8] ∧
    (listingText (.unknown 7#8 0#64)).take 11 =
      [0x2E#8, 0x77#8, 0x6F#8, 0x72#8, 0x64#8, 0x20#8, 0x30#8, 0x78#8, 0x30#8, 0x37#8, 0x30#8] := by decide

/-! ### Instructions -/

/-- V-PUSH-2 and V-PUSH-4. -/
theorem test_push : stackAfter (exec (.push 420#64) (running [69#64] 0 [])) = some [69#64, 420#64] ∧
    stackAfter (exec (.push minusOne) (running [] 0 [])) = some [0xFFFFFFFFFFFFFFFF#64] := by decide
/-- V-PUSH-7 and V-PUSH-8: the last free slot, and the full stack. -/
theorem test_push_boundary : regsAfter (exec (.push 7#64) (sized 1023)) = some (1024, 1, false, false, 0) ∧
    regsAfter (exec (.push 7#64) (sized 1024)) = some (1024, 0, false, true, 1) := by decide
/-- V-ADD-6, V-ADD-13. -/
theorem test_add : stackAfter (exec (.add 5#64) (running [int64Max, 1#64] 0 [])) = some [0x8000000000000000#64] ∧
    stackAfter (exec (.add 0#64) (running [10#64, 20#64, 30#64] 0 [])) = some [10#64, 50#64] := by decide
/-- V-ADD-11. -/
theorem test_add_underflow : regsAfter (exec (.add 0#64) (running [7#64] 3 [])) = some (1, 3, false, true, 2) := by
  decide
/-- V-SUB-2, V-SUB-6. -/
theorem test_sub : stackAfter (exec (.sub 0#64) (running [7#64, 2#64] 0 [])) = some [5#64] ∧
    stackAfter (exec (.sub 0#64) (running [int64Min, 1#64] 0 [])) = some [0x7FFFFFFFFFFFFFFF#64] := by decide
/-- V-MUL-13, V-MUL-8. -/
theorem test_mul :
    stackAfter (exec (.mul 0#64) (running [3037000500#64, 3037000500#64] 0 [])) = some [0x8000000008ABC290#64] ∧
    stackAfter (exec (.mul 0#64) (running [BitVec.ofInt 64 (-4294967296), 2147483648#64] 0 [])) =
      some [0x8000000000000000#64] := by decide
/-- V-DIV-2, V-DIV-3, V-DIV-11, V-DIV-19. -/
theorem test_div :
    stackAfter (exec (.div 0#64) (running [BitVec.ofInt 64 (-7), 2#64] 0 [])) = some [0xFFFFFFFFFFFFFFFD#64] ∧
    stackAfter (exec (.div 0#64) (running [7#64, BitVec.ofInt 64 (-2)] 0 [])) = some [0xFFFFFFFFFFFFFFFD#64] ∧
    stackAfter (exec (.div 0#64) (running [int64Min, minusOne] 0 [])) = some [0x8000000000000000#64] ∧
    stackAfter (exec (.div 0#64) (running [minusOne, 2#64] 0 [])) = some [0#64] := by decide
/-- V-DIV-9 and V-DIV-20. -/
theorem test_div_errors : regsAfter (exec (.div 0#64) (running [0#64] 0 [])) = some (1, 0, false, true, 2) ∧
    regsAfter (exec (.div 0#64) (running [1#64, 2#64, 0#64] 2 [])) = some (3, 2, false, true, 3) := by decide
/-- V-HALT-4 and V-HALT-5. -/
theorem test_halt : regsAfter (exec (.halt 42#64) (running [1#64] 9 [])) = some (1, 10, true, false, 0) ∧
    execute (.halt 0#64) { running [1#64] 0 [] with halted := true } = .ok { running [1#64] 0 [] with halted := true } := by
  decide
/-- V-JUMP-2. -/
theorem test_jump : regsAfter (exec (.jump 7#64) (running [] 0 [])) = some (0, 0, false, true, 4) := by decide
/-- V-ILL-3. -/
theorem test_unknown :
    regsAfter (exec (decode 0x100000000000000000#72) (running [1#64, 2#64] 0 [])) = some (2, 0, false, true, 4) := by
  decide

/-! ### The sequencer and reset -/

/-- V-STEP-1 and V-STEP-2, the program `Push 5, Halt`. -/
theorem test_step_push_halt :
    regsAfter (step (running [] 0 [0x5#72, 0x060000000000000000#72])) = some (1, 1, false, false, 0) ∧
    regsAfter (step (running [5#64] 1 [0x5#72, 0x060000000000000000#72])) = some (1, 2, true, false, 0) := by decide
/-- V-STEP-4: hold. -/
theorem test_step_hold :
    regsAfter (step (withInputs (running [5#64] 1 [0x5#72, 0x060000000000000000#72]) [hold])) =
      some (1, 1, false, false, 0) := by decide
/-- V-STEP-7 and V-STEP-8: running off the end. -/
theorem test_step_off_the_end : regsAfter (step (running [5#64] 1 [0x5#72])) = some (1, 1, false, true, 5) ∧
    regsAfter (step (running [] 0 [])) = some (0, 0, false, true, 5) := by decide
/-- V-RESET-1 and V-RESET-3; slot 0 still physically holds 5. -/
theorem test_reset_wins :
    regsAfter (step (withInputs (running [5#64] 1 [0x5#72, 0x010000000000000000#72]) [resetPin])) =
      some (0, 0, false, false, 0) ∧
    (nextOf? (step (withInputs (faultedWith (running [5#64] 1 []) 2#3) [resetPin]))).map (fun t => t.slot 0) =
      some 5#64 := by decide
/-- 70_reset_and_hazards.md R136, R137: a program put into the memory of an ended run is the one the next reset starts. -/
theorem test_load_after_the_end :
    (nextOf? (Sys2Proof.core.run 2
      (withInputs (faultedWith (running [] 0 []) 5#3) [loadPin false [0x5#72], resetPin]))).map
        (fun t : State => (t.prog, t.nextProg, t.faulted)) = some ([0x5#72], none, false) := by decide
/-- 70_reset_and_hazards.md R142: the host has left `step_en` low. -/
theorem test_step_held_for_ever :
    regsAfter (step { running [] 0 [0x5#72] with idle := { rst := false, stepEn := false } }) =
      some (0, 0, false, false, 0) := by decide
theorem test_load_at_reset :
    (nextOf? (step (withInputs State.reset [loadPin true [0x5#72]]))).map (fun t => t.prog) = some [0x5#72] := by decide
theorem test_withFetchWord : step (State.reset.withFetchWord 72 0x060000000000000000) =
    .next { State.reset with halted := true, ip := 1#64, prog := [0x060000000000000000#72] } := by rfl

/-! ### The observer -/

/-- V-DUMP-5, V-DUMP-6, the machine held. -/
theorem test_observer :
    ((withInputs (running [3#64, 5#64, 7#64] 0 []) [hold]).outputs 2#10).dbgVal = 7#64 ∧
    ((withInputs (running [3#64, 5#64, 7#64] 0 []) [hold]).outputs 3#10).dbgLive = false := by decide
/-- V-DUMP-3: 35 bytes. -/
theorem test_dump_text_length : (dumpText [BitVec.ofInt 64 (-3), int64Min]).length = 35 := by decide

/-! ### Witnesses: states and operands that meet the hypotheses of the statements, at the ends of their ranges -/

theorem witness_KindFieldAloneSelects : 7 ≤ (7#8).toNat ∧ 7 ≤ (255#8).toNat := by decide
theorem witness_DecodeOfEncodeIsIdentity : (Instr.unknown 7#8 1#64).wf = true ∧ (Instr.push minusOne).wf = true := by
  decide
theorem witness_DecodingFollowsMatchAndMask :
    (opcodeRows.take 7).any (fun p => p.selects 0x0400000000000000FF#72) = true ∧
    (opcodeRows.take 7).any (fun p => p.selects 0x070000000000000000#72) = false := by decide
theorem witness_ImageIsNineBigEndianBytesAWord :
    ([0x1#72, 0x2#72] : Program)[1]? = some 0x2#72 ∧ (programImage [0x1#72, 0x2#72])[9 * 1 + 8]? = some 2#8 ∧
    (programImage [0x1#72, 0x2#72])[9 * 0 + 0]? = some 0#8 := by decide
theorem witness_ImageReadsBackAsItsProgram : ([0#8] : List Byte).length % 9 ≠ 0 := by decide
theorem witness_OperandMattersToPushOnly : (1#8 : BitVec 8) ≠ 0x00#8 ∧ (255#8 : BitVec 8) ≠ 0x00#8 := by decide
theorem witness_PushAppendsItsOperand :
    (sized 0).size.toNat < 1024 ∧ (sized 1023).size.toNat < 1024 ∧ (sized 1024).size.toNat = 1024 := by decide
/-- For Add, Sub and Mul: both clauses, at both ends. -/
theorem witness_AddSubMulReplaceTheTopTwo :
    (2 ≤ (sized 2).size.toNat ∧ (sized 2).size.toNat ≤ 1024) ∧
    (2 ≤ (sized 1024).size.toNat ∧ (sized 1024).size.toNat ≤ 1024) ∧
    (sized 0).size.toNat < 2 ∧ (sized 1).size.toNat < 2 := by decide
theorem witness_DivReplacesTheTopTwo :
    (2 ≤ (running [7#64, 2#64] 0 []).size.toNat ∧ (running [7#64, 2#64] 0 []).slot 1 ≠ 0#64) ∧
    ((fullWith 7#64 2#64).size.toNat ≤ 1024 ∧ (fullWith 7#64 2#64).slot 1023 ≠ 0#64) ∧
    (sized 1).size.toNat < 2 ∧
    (2 ≤ (running [5#64, 0#64] 0 []).size.toNat ∧ (running [5#64, 0#64] 0 []).slot 1 = 0#64) := by decide
theorem witness_UnknownKindsAreIllegal : 7 ≤ (7#8).toNat ∧ 7 ≤ (255#8).toNat := by decide
theorem witness_HaltSetsHaltedOnly :
    (running [] 0 [0x060000000000000000#72]).control = some .running ∧
    ({ running [] 0 [0x060000000000000000#72] with halted := true, ip := 1#64 } : State).admitted = true ∧
    ({ running [] 0 [0x060000000000000000#72] with halted := true, ip := 1#64 } : State).pins.rst = false := by decide
theorem witness_NoSlotBeyondTheRam : 1024 < (sized 1025).size.toNat ∧ 1024 < (sized 2047).size.toNat := by decide
theorem witness_ResultsWrapModulo64Bits :
    (2 ≤ (running [int64Max, 1#64] 0 []).size.toNat ∧ (running [int64Max, 1#64] 0 []).size.toNat ≤ 1024 ∧
      (running [int64Max, 1#64] 0 []).slot 0 = int64Max ∧ (running [int64Max, 1#64] 0 []).slot 1 = 1#64) ∧
    ((fullWith 2#64 3#64).size.toNat ≤ 1024 ∧ (fullWith 2#64 3#64).slot 1022 = 2#64 ∧
      (fullWith 2#64 3#64).slot 1023 = 3#64) ∧
    (2#64).toInt + (3#64).toInt < 2 ^ 63 ∧ -(2 ^ 63) ≤ (2#64).toInt - (3#64).toInt ∧
    (2#64).toInt * (3#64).toInt < 2 ^ 63 := by decide
theorem witness_DivisionTruncatesTowardZero :
    2 ≤ (running [int64Min, 1#64] 0 []).size.toNat ∧ (running [int64Min, 1#64] 0 []).slot 0 = int64Min ∧
    (running [int64Min, 1#64] 0 []).slot 1 = 1#64 ∧ (1#64 : Word) ≠ 0#64 ∧
    ¬ (int64Min = 0x8000000000000000#64 ∧ (1#64 : Word) = 0xFFFFFFFFFFFFFFFF#64) := by decide
theorem witness_MinByMinusOneGivesTheParameter :
    2 ≤ (fullWith int64Min minusOne).size.toNat ∧ (fullWith int64Min minusOne).size.toNat ≤ 1024 ∧
    (fullWith int64Min minusOne).slot 1022 = 0x8000000000000000#64 ∧
    (fullWith int64Min minusOne).slot 1023 = 0xFFFFFFFFFFFFFFFF#64 := by decide
theorem witness_DivChecksTheCountFirst :
    (running [0#64] 0 []).size.toNat < 2 ∧
    (2 ≤ (running [0#64, 0#64] 0 []).size.toNat ∧ (running [0#64, 0#64] 0 []).slot 1 = 0#64) ∧
    (running [0#64, 1#64] 0 []).slot 1 ≠ 0#64 := by decide
theorem witness_ExecuteKeepsOutOfTheSequencer :
    errorOf (execute (.push 1#64) State.reset) = none ∧ State.reset.halted = false := by decide
theorem witness_HaltIsIdempotent : ({ State.reset with halted := true } : State).halted = true := by decide
theorem witness_ExecIsExecuteThenTheSequencersEnd : (sized 1024).size.toNat ≤ 1024 := by decide
theorem witness_PushesBalance : (List.replicate 1024 (1#64 : Word)).length = 1024 := List.length_replicate
theorem witness_DumpValueAfterEachInstruction :
    (running [1#64, 7#64, 2#64] 0 []).dumpValue = [1#64] ++ [7#64, 2#64] ∧
    (running [7#64, 2#64] 0 []).dumpValue = [] ++ [7#64, 2#64] ∧ (sized 1023).size.toNat < 1024 ∧
    (2#64 : Word) ≠ 0#64 := by decide

/-- A Running state due to step at `Push 5`, and one at an `Add` that underflows, and one past the end. -/
theorem witness_StepRunsTheDecodedInstruction :
    (running [] 0 [0x5#72]).dueToStep = true ∧ (running [] 0 [0x5#72]).prog[(running [] 0 [0x5#72]).ip.toNat]? = some 0x5#72 := by
  decide
theorem witness_SuccessAdvancesIpByOne :
    (running [] 0 [0x5#72]).dueToStep = true ∧
    errorOf (execute (decode 0x5#72) (withInputs (running [] 0 [0x5#72]) [])) = none := by decide
theorem witness_FailureRecordsTheFaultOnly :
    (running [] 0 [0x010000000000000000#72]).dueToStep = true ∧
    execute (decode 0x010000000000000000#72) (running [] 0 [0x010000000000000000#72]) = .error .stackUnderflow := by
  decide
theorem witness_FetchOutOfRangeFaults :
    (running [] 0 []).dueToStep = true ∧ (running [] 0 []).prog.length ≤ (running [] 0 []).ip.toNat := by decide
theorem witness_TerminalStatesHold :
    (faultedWith State.reset 1#3).pins.rst = false ∧ (faultedWith State.reset 1#3).admitted = true ∧
    ({ State.reset with halted := true } : State).admitted = true ∧
    (withInputs (faultedWith State.reset 1#3) [loadPin false [0x5#72]]).pins.rst = false := by decide
/-- A Running machine held, and a Faulted one held while its program memory changes. -/
theorem witness_HoldChangesNothing :
    (withInputs State.reset [hold]).pins.rst = false ∧ (withInputs State.reset [hold]).pins.stepEn = false ∧
    (withInputs State.reset [hold]).pins.newProg = none ∧
    (withInputs (faultedWith State.reset 1#3) [{ hold with newProg := some [] }]).pins.stepEn = false ∧
    (faultedWith State.reset 1#3).terminal = true := by decide
/-- A reset that keeps the program, and one that takes the program put into the memory after the run's end. -/
theorem witness_ResetWinsOverEverything :
    (withInputs (sized 2047) [resetPin]).pins.rst = true ∧
    (withInputs (sized 2047) [resetPin]).pins.newProg.or (sized 2047).nextProg = none ∧
    (none : Option Program).or (some [0x5#72]) = some [0x5#72] ∧ ([0x5#72] : Program).length < 2 ^ 64 := by
  decide
theorem witness_ProgramChangesOnlyAtReset :
    ((withInputs State.reset [loadPin true [0x5#72]]).pins.newProg.or State.reset.nextProg = some [0x5#72] ∧
      (withInputs State.reset [loadPin true [0x5#72]]).pins.rst = true ∧ ([0x5#72] : Program).length < 2 ^ 64) ∧
    ((withInputs State.reset [loadPin false []]).pins.newProg = some [] ∧
      (withInputs State.reset [loadPin false []]).pins.rst = false ∧ State.reset.terminal = false) ∧
    ((faultedWith State.reset 1#3).admitted = true ∧ (faultedWith State.reset 1#3).terminal = true) := by decide
theorem witness_ProgramChangesOnlyAtReset_too_long :
    (withInputs State.reset [loadPin true (List.replicate (2 ^ 64) 0#72)]).pins.newProg.or State.reset.nextProg =
      some (List.replicate (2 ^ 64) 0#72) ∧
    (withInputs State.reset [loadPin true (List.replicate (2 ^ 64) 0#72)]).pins.rst = true ∧
    2 ^ 64 ≤ (List.replicate (2 ^ 64) 0#72 : Program).length := by
  refine ⟨rfl, rfl, ?_⟩
  rw [List.length_replicate]
/-- One state for each clause, all but the last: the pins enable a step, and the state is not admitted. -/
theorem witness_StatesOutsideTheAdmittedAreRefused :
    (sized 1025).pins.enables = true ∧ 1024 < (sized 1025).size.toNat ∧
    (running [] 1 []).prog.length < (running [] 1 []).ip.toNat ∧ 5 < (faultedWith State.reset 6#3).err.toNat ∧
    ((faultedWith State.reset 0#3).err = 0#3 ∧ (faultedWith State.reset 0#3).faulted = true) ∧
    (({ State.reset with err := 1#3 } : State).err ≠ 0#3 ∧ ({ State.reset with err := 1#3 } : State).faulted = false) ∧
    (({ faultedWith State.reset 1#3 with halted := true } : State).halted = true ∧
      ({ faultedWith State.reset 1#3 with halted := true } : State).faulted = true) := by decide
theorem witness_StatesOutsideTheAdmittedAreRefused_too_long :
    ({ State.reset with prog := List.replicate (2 ^ 64) 0#72 } : State).pins.enables = true ∧
    2 ^ 64 ≤ ({ State.reset with prog := List.replicate (2 ^ 64) 0#72 } : State).prog.length := by
  refine ⟨rfl, ?_⟩
  show 2 ^ 64 ≤ (List.replicate (2 ^ 64) (0#72 : InstrWord)).length
  rw [List.length_replicate]
theorem witness_TwoResetsEqualOne :
    step (withInputs (sized 3) [resetPin, resetPin]) = .next (withInputs State.reset [resetPin]) ∧
    (withInputs State.reset [resetPin]).pins.rst = true ∧ (withInputs State.reset [resetPin]).pins.newProg = none :=
  ⟨rfl, rfl, rfl⟩
theorem witness_PlacedWordIsRunNext :
    (sized 1024).size.toNat ≤ 1024 ∧ (sized 1024).ip.toNat + 1 < 2 ^ 64 ∧ (sized 1024).prog.length < 2 ^ 64 := by decide
/-- A step that takes a fault. -/
theorem witness_TakingAFaultWritesNothingElse :
    (running [] 0 []).faulted = false ∧ step (running [] 0 []) = .next (faultedWith (running [] 0 []) 5#3) := ⟨rfl, rfl⟩
theorem witness_FlagsAreStickyUntilReset :
    (faultedWith State.reset 2#3).pins.rst = false ∧
    step (faultedWith State.reset 2#3) = .next (faultedWith State.reset 2#3) ∧
    step ({ State.reset with halted := true } : State) = .next { State.reset with halted := true } := ⟨rfl, rfl, rfl⟩
theorem witness_inv_of_running_states :
    State.Inv (running [7#64, 2#64] 0 [0x040000000000000000#72]) ∧ State.Inv (faultedWith State.reset 1#3) ∧
    State.Inv { State.reset with halted := true } ∧
    State.Inv { State.reset with halted := true, nextProg := some [0x5#72] } := by decide
/-- For SuccessAdvancesIpByOne, ControlStateTransitions, WritersOfSize, WritersOfIp and EveryStepKeepsTheInvariant: a Halt, a Push and an Add
from states with the invariant. -/
theorem witness_steps_without_reset :
    step (running [] 0 [0x060000000000000000#72]) =
      .next { running [] 0 [0x060000000000000000#72] with halted := true, ip := 1#64 } ∧
    step (running [] 0 [0x5#72]) =
      .next { running [] 0 [0x5#72] with stack := [(0, 5#64)], size := 1#11, ip := 1#64 } ∧
    step (running [1#64, 2#64] 0 [0x010000000000000000#72]) =
      .next { running [1#64, 2#64] 0 [0x010000000000000000#72] with
              stack := [(0, 3#64), (1, 2#64)], size := 1#11, ip := 1#64 } := ⟨rfl, rfl, rfl⟩
theorem witness_ControlStateTransitions :
    State.Inv (withInputs (faultedWith State.reset 2#3) [resetPin]) ∧
    step (withInputs (faultedWith State.reset 2#3) [resetPin]) = .next State.reset ∧
    State.Inv (withInputs State.reset [hold]) ∧ step (withInputs State.reset [hold]) = .next State.reset ∧
    step (withInputs (faultedWith State.reset 2#3) [hold]) = .next (faultedWith State.reset 2#3) ∧
    (running [] 0 [0x060000000000000000#72]).control = some .running ∧
    (running [] 0 [0x060000000000000000#72]).pins.stepEn = true := ⟨by decide, rfl, by decide, rfl, rfl, rfl, rfl⟩
theorem witness_ProgramIsNeverWritten :
    (∀ j, j < 1 → ((running [] 0 [0x5#72]).pinsAt j).rst = false) ∧
    Sys2Proof.core.run 1 (running [] 0 [0x5#72]) =
      .next { running [] 0 [0x5#72] with stack := [(0, 5#64)], size := 1#11, ip := 1#64 } := ⟨by decide, rfl⟩
/-- Two states that differ in a dead slot only, and a run from one of them. -/
theorem witness_DeadSlotsAreNeverSeen :
    State.SameLive State.reset { State.reset with stack := [(3, 9#64)] } ∧
    Sys2Proof.core.run 1 State.reset = .next (faultedWith State.reset 5#3) :=
  ⟨⟨rfl, rfl, ⟨rfl, rfl, rfl⟩, ⟨rfl, rfl, rfl, rfl⟩, fun _ hi => absurd hi (Nat.not_lt_zero _)⟩, rfl⟩
theorem witness_EveryRunEnds :
    State.Inv (withInputs (running [] 0 [0x5#72]) [hold]) ∧
    (∀ k, k < 3 → ((withInputs (running [] 0 [0x5#72]) [hold]).pinsAt k).keepsRun = true) ∧
    (running [] 0 [0x5#72]).prog.length - (running [] 0 [0x5#72]).ip.toNat + 1 ≤
      (withInputs (running [] 0 [0x5#72]) [hold]).enabledEdges 3 := by decide
theorem witness_HeldForEverNeverMoves :
    ({ State.reset with idle := { rst := false, stepEn := false } } : State).inputs = [] ∧
    ({ State.reset with idle := { rst := false, stepEn := false } } : State).idle.stepEn = false ∧
    ({ sized 3 with idle := { rst := true, stepEn := false } } : State).idle.rst = true ∧
    ({ sized 3 with idle := { rst := true, stepEn := false } } : State).nextProg = none := by decide
theorem witness_EndedRunsKeepTheirResult :
    State.Inv (withInputs (faultedWith State.reset 1#3) [loadPin false []]) ∧
    (withInputs (faultedWith State.reset 1#3) [loadPin false []]).terminal = true ∧
    (∀ j, j < 2 → ((withInputs (faultedWith State.reset 1#3) [loadPin false []]).pinsAt j).rst = false) := by decide
theorem witness_AdmittedStatesAlwaysStep :
    State.Inv (running [7#64, 0#64] 0 [0x040000000000000000#72]) ∧
    (running [7#64, 0#64] 0 [0x040000000000000000#72]).pins.newProg = none ∧
    (running [7#64, 0#64] 0 [0x040000000000000000#72]).nextProg = none ∧
    (withInputs State.reset [resetPin]).pins.rst = true := by decide
theorem witness_StackRamReadsTheLatestWrite : Memory.wf [(0, 1#64), (1023, 2#64)] ∧ (1 : Nat) ≠ 1023 := by decide
theorem witness_DumpValueIsTheLiveStack : (2 : Nat) < (running [3#64, 5#64, 7#64] 0 []).size.toNat := by decide
theorem witness_ObserverPortGivesTheDump :
    (withInputs (running [3#64] 0 []) [hold]).pins.stepEn = false ∧
    ((withInputs (running [3#64] 0 []) [hold]).outputs 0#10).dbgLive = true := by decide

end Sys2Proof.Tests
end

section
/-! The interchange image of a program, and the program of a run (20_memory.md). -/

namespace Sys2Proof

/-! ### The image: nine bytes a record (20_memory.md R43) -/

/-- A record, byte by byte: byte `j` is the byte of the word that ends at bit `64 - 8 * j`. -/
theorem wordBytes_eq_map_range (w : InstrWord) :
    wordBytes w = (List.range 9).map (fun j => w.extractLsb' (64 - 8 * j) 8) := rfl

@[simp] theorem wordBytes_length (w : InstrWord) : (wordBytes w).length = 9 := rfl

theorem wordBytes_getElem? (w : InstrWord) {j : Nat} (hj : j < 9) :
    (wordBytes w)[j]? = some (w.extractLsb' (64 - 8 * j) 8) := by
  simp [wordBytes_eq_map_range, hj]

theorem programImage_length (p : Program) : (programImage p).length = 9 * p.length := by
  induction p with
  | nil => rfl
  | cons w p ih =>
    simp only [programImage, List.length_append, wordBytes_length, ih, List.length_cons]
    omega

/-- Record `i` of an image is the record of word `i`. -/
theorem programImage_getElem? {p : Program} {i j : Nat} {w : InstrWord} (hw : p[i]? = some w) (hj : j < 9) :
    (programImage p)[9 * i + j]? = (wordBytes w)[j]? := by
  induction p generalizing i with
  | nil => simp at hw
  | cons v p ih =>
    cases i with
    | zero =>
      obtain rfl : v = w := by simpa using hw
      rw [programImage, Nat.mul_zero, Nat.zero_add, List.getElem?_append_left (wordBytes_length v ▸ hj)]
    | succ i =>
      have hpast : (wordBytes v).length ≤ 9 * (i + 1) + j := by rw [wordBytes_length]; omega
      have hindex : 9 * (i + 1) + j - (wordBytes v).length = 9 * i + j := by rw [wordBytes_length]; omega
      rw [programImage, List.getElem?_append_right hpast, hindex]
      exact ih (by simpa using hw)

/-- Settles O6: by induction on the program, record `i` of its image is the record of word `i`. -/
theorem imageIsNineBigEndianBytesAWord : Obligations.ImageIsNineBigEndianBytesAWord := fun p =>
  ⟨programImage_length p, fun _ _ w hw hj => (programImage_getElem? hw hj).trans (wordBytes_getElem? w hj)⟩

end Sys2Proof

namespace Sys2Proof.Machine

/-! ### The program of a run is never written (20_memory.md R55) -/

theorem execute_prog {i : Instr} {s m : State} (h : execute i s = .ok m) : m.prog = s.prog := by
  rcases execute_ok_cases h with ⟨n, -, -, rfl⟩ | ⟨r, -, rfl, -⟩ | ⟨-, rfl⟩
  · exact State.pushed_prog s n
  · exact State.combined_prog s r
  · rfl

theorem exec_prog {i : Instr} {s t : State} (hs : s.size.toNat ≤ 1024) (h : exec i s = .next t) :
    t.prog = s.prog := by
  rcases exec_next_cases hs h with ⟨m, hm, rfl⟩ | ⟨e, -, rfl⟩
  · exact (State.advanceIp_prog m).trans (execute_prog hm)
  · exact State.takeFault_prog s _

/-- Reset alone can change the program of a run: what the host supplies otherwise waits in `nextProg`. -/
theorem step_prog {s t : State} (hr : s.pins.rst = false) (h : step s = .next t) : t.prog = s.prog := by
  rcases step_cases h with ⟨hrst, -⟩ | ⟨p, hrst, -⟩ | ⟨-, -, -, rfl⟩ | ⟨-, -, -, -, rfl⟩ |
    ⟨-, -, -, -, -, -, rfl⟩ | ⟨w, -, -, -, ha, -, -, hx⟩
  case inl | inr.inl => simp [hr] at hrst
  case inr.inr.inr.inr.inr =>
    exact exec_prog (s := s.tick) ((State.admitted_iff s).mp ha).1 hx
  all_goals rfl

/-- Settles O46, by induction on the number of steps: none of them is a reset, so each keeps the program. -/
theorem programIsNeverWritten : Obligations.ProgramIsNeverWritten := by
  intro k
  induction k with
  | zero =>
    intro s t _ h
    obtain rfl : s = t := Host.Outcome.next.inj h
    rfl
  | succ k ih =>
    intro s t hrst h
    obtain ⟨u, hu, hrun⟩ := run_succ_next h
    have hpins : s.pins.rst = false := by simpa using hrst 0 k.succ_pos
    have hlater : ∀ j, j < k → (u.pinsAt j).rst = false := fun j hj => by
      rw [pinsAt_of_step hu]
      exact hrst (j + 1) (Nat.succ_lt_succ hj)
    calc t.prog = u.prog := ih u t hlater hrun
      _ = s.prog := step_prog hpins hu

end Sys2Proof.Machine
end

section
/-! The kind field alone selects the instruction, and the operand matters to Push only (30_encoding.md R60, R63). -/

namespace Sys2Proof

/-- The same instruction with another operand field. -/
def Instr.withOperand (n : Word) : Instr → Instr
  | .push _ => .push n
  | .add _ => .add n
  | .sub _ => .sub n
  | .mul _ => .mul n
  | .div _ => .div n
  | .jump _ => .jump n
  | .halt _ => .halt n
  | .unknown kind _ => .unknown kind n

/-- The operand field takes no part in selecting the instruction: two words of one kind decode to the same instruction
up to their operands (30_encoding.md R60). -/
theorem decode_packWord_eq_withOperand (k : BitVec 8) (x y : Word) :
    decode (packWord k y) = (decode (packWord k x)).withOperand y := by
  simp only [decode, kindField_packWord, operandField_packWord]
  split <;> rfl

/-- Only the kind number 0 is a Push (30_encoding.md R60). -/
theorem kindField_of_decode_kind_push {w : InstrWord} (h : (decode w).kind = .push) : kindField w = 0#8 := by
  rcases decode_cases w with ⟨hk, -⟩ | ⟨-, hd⟩ | ⟨-, hd⟩ | ⟨-, hd⟩ | ⟨-, hd⟩ | ⟨-, hd⟩ | ⟨-, hd⟩ | ⟨-, hd⟩
  · exact hk
  all_goals simp [hd, Instr.kind] at h

theorem decode_packWord_unknown {k : BitVec 8} (hk : 7 ≤ k.toNat) (n : Word) :
    decode (packWord k n) = .unknown k n := by
  have hfield : 7 ≤ (kindField (packWord k n)).toNat := by rwa [kindField_packWord]
  rw [decode_unknown hfield, kindField_packWord, operandField_packWord]

/-- Settles O2: each declared kind's word of operand 0 evaluates to its instruction, and the operand takes no part in
selecting it; the kinds from 7 on are the decoder's last class. -/
theorem kindFieldAloneSelects : Obligations.KindFieldAloneSelects := fun n =>
  have declared (k : BitVec 8) : decode (k ++ n) = (decode (packWord k 0#64)).withOperand n :=
    decode_packWord_eq_withOperand k 0#64 n
  ⟨declared 0x00#8, declared 0x01#8, declared 0x02#8, declared 0x03#8, declared 0x04#8, declared 0x05#8,
    declared 0x06#8, fun _ hk => decode_packWord_unknown hk n⟩

end Sys2Proof

namespace Sys2Proof.Machine

/-- Execute of every instruction but Push is the same whatever the operand (30_encoding.md R63). -/
theorem execute_withOperand {i : Instr} (h : i.kind ≠ .push) (n : Word) (s : State) :
    execute (i.withOperand n) s = execute i s := by
  cases i with
  | push _ => exact absurd rfl h
  | add _ | sub _ | mul _ | div _ | jump _ | halt _ | unknown _ _ => rfl

/-- The meaning of every instruction but Push is the same whatever the operand (30_encoding.md R63). -/
theorem exec_withOperand {i : Instr} (h : i.kind ≠ .push) (n : Word) (s : State) :
    exec (i.withOperand n) s = exec i s := by
  cases i with
  | push _ => exact absurd rfl h
  | add _ | sub _ | mul _ | div _ | jump _ | halt _ | unknown _ _ => rfl

/-- Settles O8: the two words decode to one instruction up to the operand, and it is no Push. -/
theorem operandMattersToPushOnly : Obligations.OperandMattersToPushOnly := by
  intro k x y s hk
  have hpush : (decode (k ++ x)).kind ≠ .push := fun h =>
    hk ((kindField_packWord k x).symm.trans (kindField_of_decode_kind_push h))
  have hy : decode (k ++ y) = (decode (k ++ x)).withOperand y := decode_packWord_eq_withOperand k x y
  rw [hy]
  exact ⟨(exec_withOperand hpush y s).symm, (execute_withOperand hpush y s).symm⟩

end Sys2Proof.Machine
end

section
/-! Push: its operand appended, its overflow, and the balance of many pushes (40_push.md). -/

namespace Sys2Proof.Machine

/-- The meaning of Push on a stack with room. -/
theorem exec_push_of_lt {s : State} (n : Word) (h : s.size.toNat < 1024) :
    exec (.push n) s = .next (s.pushed n).advanceIp := by
  rcases executePush_cases n s with ⟨hfull, -⟩ | ⟨-, hok⟩
  · omega
  · exact (exec_eq_retire h.le).trans (congrArg (retire s) hok)

/-- The meaning of Push on a full stack. -/
theorem exec_push_of_full {s : State} (n : Word) (h : s.size.toNat = 1024) :
    exec (.push n) s = .next (s.withFault 1#3) := by
  rcases executePush_cases n s with ⟨-, herr⟩ | ⟨hroom, -⟩
  · exact (exec_eq_retire h.le).trans (congrArg (retire s) herr)
  · exact absurd h hroom

/-- Settles O10: below 1024 the slot written is the first dead one and every other slot keeps its word; at 1024 the
check of Push raises StackOverflow. -/
theorem pushAppendsItsOperand : Obligations.PushAppendsItsOperand := fun n s =>
  ⟨(kindFieldAloneSelects n).1,
    fun hroom => ⟨(s.pushed n).advanceIp, exec_push_of_lt n hroom, s.size_pushed n hroom, s.slot_pushed_same n,
      fun _ hi => s.slot_pushed_other n hi, rfl, ⟨rfl, rfl, rfl⟩, ⟨rfl, rfl, rfl, rfl⟩⟩,
    exec_push_of_full n⟩

@[simp] theorem State.dumpValue_advanceIp (s : State) : s.advanceIp.dumpValue = s.dumpValue := rfl

/-- A push appends to the live stack: the slots below `size` keep their words, and slot `size` becomes the last. -/
theorem State.dumpValue_pushed {s : State} (n : Word) (h : s.size.toNat < 1024) :
    (s.pushed n).dumpValue = s.dumpValue ++ [n] := by
  have hbelow : (List.range s.size.toNat).map (s.pushed n).slot = (List.range s.size.toNat).map s.slot :=
    List.map_congr_left fun i hi => s.slot_pushed_other n (List.mem_range.mp hi).ne
  rw [State.dumpValue, s.size_pushed n h, List.range_succ, List.map_append, hbelow, List.map_singleton,
    s.slot_pushed_same n, State.dumpValue]

/-- Pushes that fit above a stack succeed and append their operands in order. -/
theorem execAll_push {vs : List Word} {s : State} (h : s.size.toNat + vs.length ≤ 1024) :
    ∃ t, execAll (vs.map Instr.push) s = .next t ∧ t.size.toNat = s.size.toNat + vs.length ∧
      t.dumpValue = s.dumpValue ++ vs := by
  induction vs generalizing s with
  | nil => exact ⟨s, rfl, rfl, (List.append_nil _).symm⟩
  | cons v vs ih =>
    rw [List.length_cons] at h
    have hroom : s.size.toNat < 1024 := by omega
    have hsize : (s.pushed v).advanceIp.size.toNat = s.size.toNat + 1 := s.size_pushed v hroom
    obtain ⟨t, hrun, hts, htd⟩ := ih (s := (s.pushed v).advanceIp) (by omega)
    refine ⟨t, ?_, ?_, ?_⟩
    · rw [List.map_cons, execAll, exec_push_of_lt v hroom]
      exact hrun
    · rw [hts, hsize, List.length_cons]
      omega
    · rw [htd, State.dumpValue_advanceIp, State.dumpValue_pushed v hroom, List.append_assoc, List.singleton_append]

/-- Settles O27: the stack after reset is empty, so the pushes leave their list alone, and 1024 of them fill the stack. -/
theorem pushesBalance : Obligations.PushesBalance := by
  intro vs hlen
  have hempty : State.reset.size.toNat = 0 := rfl
  obtain ⟨t, hrun, hsize, hdump⟩ := execAll_push (vs := vs) (s := State.reset) (by omega)
  have hcount : t.size.toNat = vs.length := by omega
  exact ⟨t, hrun, hcount, hdump, fun hfull n => exec_push_of_full n (hcount.trans hfull)⟩

end Sys2Proof.Machine
end

section
/-! Add, Sub, Mul and Div: what replaces the two topmost elements, the errors, and the integer laws
(41_arithmetic.md). -/

namespace Sys2Proof

/-! ### Reducing an exact result to a word (00_scope.md R9, 41_arithmetic.md R82) -/

theorem toInt_wrap64_of_fits {n : Int} (hlo : -(2 ^ 63) ≤ n) (hhi : n < 2 ^ 63) : (wrap64 n).toInt = n :=
  BitVec.toInt_ofInt_eq_self (by decide) hlo hhi

theorem dvd_toInt_wrap64_sub (n : Int) : (2 ^ 64 : Int) ∣ (wrap64 n).toInt - n := by
  rw [wrap64, BitVec.toInt_ofInt]
  exact Int.dvd_bmod_sub_self

/-- The quotient reduced to a word is the library's signed division, `INT64_MIN / -1` included. -/
theorem wrap64_tdiv (a b : Word) : wrap64 (tdiv (sint a) (sint b)) = a.sdiv b := by
  rw [← BitVec.toInt_inj, wrap64, BitVec.toInt_ofInt, BitVec.toInt_sdiv, tdiv, sint, sint]

end Sys2Proof

namespace Sys2Proof.Machine

/-! ### The four functions on 64-bit words (41_arithmetic.md R82, R83) -/

/-- Add is the 64-bit adder's sum. -/
theorem fAdd_eq (a b : Word) : fAdd a b = a + b := by
  rw [← BitVec.toInt_inj, BitVec.toInt_add]
  exact BitVec.toInt_ofInt _

/-- Sub is the adder's sum with the right operand complemented and a carry in. -/
theorem fSub_eq (a b : Word) : fSub a b = a + ~~~b + 1#64 := by
  rw [BitVec.add_assoc, ← BitVec.neg_eq_not_add, ← BitVec.sub_eq_add_neg, ← BitVec.toInt_inj, BitVec.toInt_sub]
  exact BitVec.toInt_ofInt _

/-- Mul is the low half of the full product. -/
theorem fMul_eq (a b : Word) : fMul a b = (a.setWidth 128 * b.setWidth 128).setWidth 64 := by
  have hlow : (a.setWidth 128 * b.setWidth 128).setWidth 64 = a * b := by simp [BitVec.setWidth_mul]
  rw [hlow, ← BitVec.toInt_inj, BitVec.toInt_mul]
  exact BitVec.toInt_ofInt _

/-- The default of `div_min_by_minus1` is what the formula gives for the one pair it answers (decision D6). -/
theorem fDiv_eq_wrap64 (a b : Word) : fDiv a b = wrap64 (tdiv (sint a) (sint b)) := by
  by_cases hc : a = int64Min ∧ b = minusOne
  · obtain ⟨rfl, rfl⟩ := hc
    decide
  · simp [fDiv, divCorner, hc]

/-- Every quotient but that of `INT64_MIN / -1` fits. -/
theorem toInt_fDiv {a b : Word} (h : ¬ (a = 0x8000000000000000#64 ∧ b = 0xFFFFFFFFFFFFFFFF#64)) :
    (fDiv a b).toInt = a.toInt.tdiv b.toInt := by
  rw [fDiv_eq_wrap64, wrap64_tdiv]
  exact BitVec.toInt_sdiv_of_ne_or_ne a b (not_and_or.mp h)

/-- The remainder of a truncated division is smaller than the divisor and zero or of the dividend's sign. -/
theorem tmod_remainder (a : Int) {b : Int} (hb : b ≠ 0) :
    (a.tmod b).natAbs < b.natAbs ∧ (a.tmod b = 0 ∨ (a.tmod b).sign = a.sign) := by
  constructor
  · rw [Int.natAbs_tmod]
    exact Nat.mod_lt _ (Int.natAbs_pos.mpr hb)
  · by_cases hd : b ∣ a
    · exact .inl (Int.tmod_eq_zero_of_dvd hd)
    · exact .inr (by rw [Int.sign_tmod, if_neg hd])

/-! ### The sequencer's end of an arithmetic instruction (43_fetch_execute.md R102, R104) -/

theorem State.combines_combined_advanceIp (s : State) (r : Word) (h : 2 ≤ s.size.toNat) :
    State.Combines s (s.combined r).advanceIp r :=
  ⟨s.size_combined r h, s.slot_combined_same r, fun _ hi => s.slot_combined_other r hi, rfl, ⟨rfl, rfl, rfl⟩,
    ⟨rfl, rfl, rfl, rfl⟩⟩

theorem exec_of_execute_combined {i : Instr} {s : State} {r : Word} (h2 : 2 ≤ s.size.toNat)
    (hle : s.size.toNat ≤ 1024) (hx : execute i s = .ok (s.combined r)) :
    ∃ t, exec i s = .next t ∧ State.Combines s t r :=
  ⟨(s.combined r).advanceIp, (exec_eq_retire hle).trans (congrArg (retire s) hx), s.combines_combined_advanceIp r h2⟩

theorem exec_of_execute_error {i : Instr} {s : State} {e : ErrorKind} (hle : s.size.toNat ≤ 1024)
    (hx : execute i s = .error e) : exec i s = .next (s.withFault e.code) :=
  (exec_eq_retire hle).trans (congrArg (retire s) hx)

/-! ### The shape of Add, Sub and Mul (41_arithmetic.md R76) -/

section Binary

variable {i : Instr} {f : Word → Word → Word} {s : State}

theorem exec_binary_combines (hi : execute i s = executeBinary f s) (h2 : 2 ≤ s.size.toNat)
    (hle : s.size.toNat ≤ 1024) :
    ∃ t, exec i s = .next t ∧ State.Combines s t (f s.leftOperand s.rightOperand) := by
  rcases executeBinary_cases f s with ⟨hshort, -⟩ | ⟨-, hok⟩
  · omega
  · exact exec_of_execute_combined h2 hle (hi.trans hok)

theorem exec_binary_underflows (hi : execute i s = executeBinary f s) (hshort : s.size.toNat < 2) :
    exec i s = .next (s.withFault 2#3) := by
  rcases executeBinary_cases f s with ⟨-, herr⟩ | ⟨h2, -⟩
  · exact exec_of_execute_error (by omega) (hi.trans herr)
  · omega

/-- The result of a function that reduces the exact result `x` is exact where `x` fits, and congruent to it always. -/
theorem exec_binary_wraps (hi : execute i s = executeBinary f s) (h2 : 2 ≤ s.size.toNat)
    (hle : s.size.toNat ≤ 1024) {r : Word} {x : Int} (hr : f s.leftOperand s.rightOperand = r)
    (hx : f s.leftOperand s.rightOperand = wrap64 x) :
    ∃ t, exec i s = .next t ∧ State.SameFlags s t ∧ t.slot (s.size.toNat - 2) = r ∧
      (-(2 ^ 63) ≤ x → x < 2 ^ 63 → (t.slot (s.size.toNat - 2)).toInt = x) ∧
      (2 ^ 64 : Int) ∣ (t.slot (s.size.toNat - 2)).toInt - x := by
  obtain ⟨t, ht, -, hslot, -, -, hflags, -⟩ := exec_binary_combines hi h2 hle
  refine ⟨t, ht, hflags, hslot.trans hr, ?_⟩
  rw [hslot, hx]
  exact ⟨toInt_wrap64_of_fits, dvd_toInt_wrap64_sub x⟩

end Binary

/-! ### The three cases of Div (41_arithmetic.md R80, R85) -/

theorem exec_div_combines (n : Word) {s : State} (h2 : 2 ≤ s.size.toNat) (hle : s.size.toNat ≤ 1024)
    (hb : s.rightOperand ≠ 0#64) :
    ∃ t, exec (.div n) s = .next t ∧ State.Combines s t (fDiv s.leftOperand s.rightOperand) := by
  rcases executeDivision_cases fDiv s with ⟨hshort, -⟩ | ⟨-, hzero, -⟩ | ⟨-, -, hok⟩
  · omega
  · exact absurd hzero hb
  · exact exec_of_execute_combined h2 hle hok

theorem exec_div_underflows (n : Word) {s : State} (hshort : s.size.toNat < 2) :
    exec (.div n) s = .next (s.withFault 2#3) := by
  rcases executeDivision_cases fDiv s with ⟨-, herr⟩ | ⟨h2, -⟩ | ⟨h2, -⟩
  · exact exec_of_execute_error (i := .div n) (by omega) herr
  · omega
  · omega

theorem exec_div_by_zero (n : Word) {s : State} (h2 : 2 ≤ s.size.toNat) (hle : s.size.toNat ≤ 1024)
    (hb : s.rightOperand = 0#64) : exec (.div n) s = .next (s.withFault 3#3) := by
  rcases executeDivision_cases fDiv s with ⟨hshort, -⟩ | ⟨-, -, herr⟩ | ⟨-, hne, -⟩
  · omega
  · exact exec_of_execute_error (i := .div n) hle herr
  · exact absurd hb hne

/-! ### What each instruction does (R77 to R80), and the integer laws (R82, R83) -/

/-- Settles O11: Add has the shape of the three, with the sum reduced to a word. -/
theorem addReplacesTheTopTwo : Obligations.AddReplacesTheTopTwo := by
  intro n s
  obtain ⟨-, hadd, -⟩ := kindFieldAloneSelects n
  exact ⟨hadd, exec_binary_combines (f := fAdd) rfl, exec_binary_underflows (f := fAdd) rfl⟩

/-- Settles O12: Sub has the shape of the three, with the difference reduced to a word. -/
theorem subReplacesTheTopTwo : Obligations.SubReplacesTheTopTwo := by
  intro n s
  obtain ⟨-, -, hsub, -⟩ := kindFieldAloneSelects n
  exact ⟨hsub, exec_binary_combines (f := fSub) rfl, exec_binary_underflows (f := fSub) rfl⟩

/-- Settles O13: Mul has the shape of the three, with the product reduced to a word. -/
theorem mulReplacesTheTopTwo : Obligations.MulReplacesTheTopTwo := by
  intro n s
  obtain ⟨-, -, -, hmul, -⟩ := kindFieldAloneSelects n
  exact ⟨hmul, exec_binary_combines (f := fMul) rfl, exec_binary_underflows (f := fMul) rfl⟩

/-- Settles O14: the three cases of Div, with the quotient reduced to a word for every pair (decision D6). -/
theorem divReplacesTheTopTwo : Obligations.DivReplacesTheTopTwo := by
  intro n s
  obtain ⟨-, -, -, -, hdiv, -⟩ := kindFieldAloneSelects n
  refine ⟨hdiv, fun h2 hle hb => ?_, exec_div_underflows n, exec_div_by_zero n⟩
  have hrun := exec_div_combines n h2 hle hb
  rwa [fDiv_eq_wrap64] at hrun

/-- Settles O19: each of the three functions is a word operation, and each reduces the exact result. -/
theorem resultsWrapModulo64Bits : Obligations.ResultsWrapModulo64Bits := by
  rintro n s _ _ h2 hle rfl rfl
  exact ⟨exec_binary_wraps (f := fAdd) rfl h2 hle (fAdd_eq _ _) rfl,
    exec_binary_wraps (f := fSub) rfl h2 hle (fSub_eq _ _) rfl,
    exec_binary_wraps (f := fMul) rfl h2 hle (fMul_eq _ _) rfl⟩

/-- Settles O20: the quotient fits, so the remainder is that of the truncated division of the integers. -/
theorem divisionTruncatesTowardZero : Obligations.DivisionTruncatesTowardZero := by
  rintro n s a b h2 hle rfl rfl hb hcorner
  obtain ⟨t, ht, -, hslot, -⟩ := exec_div_combines n h2 hle hb
  have hquotient : (t.slot (s.size.toNat - 2)).toInt =
      (s.slot (s.size.toNat - 2)).toInt.tdiv (s.slot (s.size.toNat - 1)).toInt :=
    (congrArg BitVec.toInt hslot).trans (toInt_fDiv hcorner)
  have hdivisor : (s.slot (s.size.toNat - 1)).toInt ≠ 0 := fun h => hb (BitVec.toInt_inj.mp h)
  refine ⟨t, ht, _, ?_, tmod_remainder _ hdivisor⟩
  rw [hquotient]
  exact (Int.tdiv_mul_add_tmod _ _).symm

end Sys2Proof.Machine
end

section
/-! Halt, Jump and the unknown kinds, and the hold of a terminal machine (42_halt_jump_illegal.md). -/

namespace Sys2Proof.Machine

/-! ### The control state, and the edges of a machine that has ended (10_state.md R25, 43_fetch_execute.md R105) -/

theorem State.control_eq_running_iff (s : State) :
    s.control = some .running ↔ s.halted = false ∧ s.faulted = false := by
  cases hh : s.halted <;> cases hf : s.faulted <;> simp [State.control, hh, hf]

theorem State.control_eq_halted_iff (s : State) :
    s.control = some .halted ↔ s.halted = true ∧ s.faulted = false := by
  cases hh : s.halted <;> cases hf : s.faulted <;> simp [State.control, hh, hf]

theorem State.terminal_of_halted {s : State} (h : s.halted = true) : s.terminal = true := by
  simp [State.terminal, h]

theorem State.sameMachine_tick_supplied (s : State) (q : Option Program) :
    State.SameMachine s (s.tick.supplied q) := ⟨rfl, rfl, rfl, ⟨rfl, rfl, rfl⟩, rfl⟩

/-- Without reset a terminal machine only takes note of the program supplied, held or stepped: no such change breaks a
run. -/
theorem step_of_terminal {s : State} (hr : s.pins.rst = false) (ha : s.admitted = true) (ht : s.terminal = true) :
    step s = .next (s.tick.supplied s.pins.newProg) := by
  have hbreaks : s.pins.breaksRun s.tick = false :=
    (HostInputs.breaksRun_false_iff _ _).mpr fun hrunning => absurd (ht.symm.trans hrunning) (by decide)
  cases he : s.pins.stepEn with
  | false => simp [step, clockEdge, hr, hbreaks, he]
  | true => simp [step, clockEdge, hr, hbreaks, he, ha, runEdge, ht]

/-! ### What each of the three does (R90, R92, R94) -/

/-- The meaning of Halt, in every state: it does not reach the RAM (42_halt_jump_illegal.md R90, decision D11). -/
theorem exec_halt (n : Word) (s : State) :
    exec (.halt n) s = .next { s with halted := true, ip := s.ip + 1#64 } := rfl

/-- The meaning of Jump, in every state (42_halt_jump_illegal.md R92, decision D12). -/
theorem exec_jump (n : Word) (s : State) : exec (.jump n) s = .next (s.withFault 4#3) := rfl

/-- The meaning of a word of an unknown kind, in every state (42_halt_jump_illegal.md R94). -/
theorem exec_unknown (k : BitVec 8) (n : Word) (s : State) :
    exec (.unknown k n) s = .next (s.withFault 4#3) := rfl

/-- Settles O15: the state Halt leaves differs in `halted` and `ip` alone, and a halted machine holds at every edge
without reset. -/
theorem haltSetsHaltedOnly : Obligations.HaltSetsHaltedOnly := by
  intro n s
  obtain ⟨-, -, -, -, -, -, hdecode, -⟩ := kindFieldAloneSelects n
  refine ⟨hdecode, rfl, _, rfl, exec_halt n s, fun hrunning => ?_, fun hadmitted hrst => ?_⟩
  · obtain ⟨-, hfaulted⟩ := s.control_eq_running_iff.mp hrunning
    exact (State.control_eq_halted_iff _).mpr ⟨rfl, hfaulted⟩
  · exact ⟨_, step_of_terminal hrst hadmitted (State.terminal_of_halted rfl), State.sameMachine_tick_supplied _ _⟩

/-- Settles O16: no check comes before the error, so operand and stack take no part in it. -/
theorem jumpIsIllegal : Obligations.JumpIsIllegal := by
  intro n s
  obtain ⟨-, -, -, -, -, hdecode, -⟩ := kindFieldAloneSelects n
  exact ⟨hdecode, rfl, exec_jump n s⟩

/-- Settles O17: the kinds from 7 on are the decoder's last class, and it has the meaning of Jump. -/
theorem unknownKindsAreIllegal : Obligations.UnknownKindsAreIllegal := fun k n s hk =>
  ⟨decode_packWord_unknown hk n, rfl, exec_unknown k n s⟩

end Sys2Proof.Machine
end

section
/-! The sequencer at a clock edge: what a due step runs, what it does to `ip`, and the edges that hold
(43_fetch_execute.md). -/

namespace Sys2Proof.Machine

/-! ### A due step (R101) -/

theorem State.terminal_eq_false_iff (s : State) : s.terminal = false ↔ s.halted = false ∧ s.faulted = false := by
  simp [State.terminal]

theorem HostInputs.enables_iff (p : HostInputs) :
    p.enables = true ↔ p.rst = false ∧ p.newProg = none ∧ p.stepEn = true := by
  simp [HostInputs.enables, HostInputs.keepsRun, and_assoc]

theorem State.dueToStep_iff (s : State) :
    s.dueToStep = true ↔ s.pins.rst = false ∧ s.pins.newProg = none ∧ s.pins.stepEn = true ∧ s.admitted = true ∧
      s.terminal = false := by
  simp [State.dueToStep, HostInputs.enables_iff, and_assoc]

/-- The edge at which a step is due is the machine's own transition. -/
theorem step_of_dueToStep {s : State} (h : s.dueToStep = true) : step s = runEdge s.tick := by
  obtain ⟨hrst, hprog, hen, hadmitted, -⟩ := s.dueToStep_iff.mp h
  simp [step, clockEdge, HostInputs.breaksRun, hrst, hprog, hen, hadmitted]

/-- A due step that finds a word runs the sequencer's end on the result of its Execute (R101, R102, R104). -/
theorem step_eq_retire {s : State} {w : InstrWord} (h : s.dueToStep = true) (hw : s.prog[s.ip.toNat]? = some w) :
    step s = retire s.tick (execute (decode w) s.tick) := by
  obtain ⟨-, -, -, hadmitted, hrunning⟩ := s.dueToStep_iff.mp h
  obtain ⟨hsize, -⟩ := s.admitted_iff.mp hadmitted
  have hinRange : s.tick.imemOob = false := (State.imemOob_false_iff s.tick).mpr ⟨w, hw⟩
  have hword : s.tick.imemData = w := State.imemData_of_getElem? hw
  calc step s = runEdge s.tick := step_of_dueToStep h
    _ = exec (decode w) s.tick := by simp [runEdge, hrunning, hinRange, hword]
    _ = retire s.tick (execute (decode w) s.tick) := exec_eq_retire hsize

/-- A due step that finds no word takes the fault of the fetch, without Execute (R103, decision D9). -/
theorem step_of_fetch_out_of_range {s : State} (h : s.dueToStep = true) (hip : s.prog.length ≤ s.ip.toNat) :
    step s = .next (s.tick.takeFault .fetchOutOfRange) := by
  obtain ⟨-, -, -, -, hrunning⟩ := s.dueToStep_iff.mp h
  have hoob : s.tick.imemOob = true := decide_eq_true hip
  rw [step_of_dueToStep h]
  simp [runEdge, hrunning, hoob]

/-- Settles O31: the sequencer's end of a failed Execute is the fault, taken from the state before it. -/
theorem failureRecordsTheFaultOnly : Obligations.FailureRecordsTheFaultOnly := fun s _ _ hdue hw hx =>
  (step_eq_retire hdue hw).trans (congrArg (retire s.tick) hx)

/-- Settles O32: the fetch range check comes before Execute. -/
theorem fetchOutOfRangeFaults : Obligations.FetchOutOfRangeFaults := fun _ hdue hip =>
  step_of_fetch_out_of_range hdue hip

/-! ### The instruction pointer (R98, R102) -/

/-- A successful Execute leaves the sequencer's own registers alone: `ip`, `faulted` and `err`. -/
theorem execute_sequencer_registers {i : Instr} {s m : State} (h : execute i s = .ok m) :
    m.ip = s.ip ∧ m.faulted = s.faulted ∧ m.err = s.err := by
  rcases execute_ok_cases h with ⟨n, -, -, rfl⟩ | ⟨r, -, rfl, -⟩ | ⟨-, rfl⟩ <;> exact ⟨rfl, rfl, rfl⟩

/-- The pointer past a word of the program does not wrap: the program's length fits (00_scope.md R7). -/
theorem State.toNat_ip_add_one {s : State} {w : InstrWord} (ha : s.admitted = true)
    (hw : s.prog[s.ip.toNat]? = some w) : (s.ip + 1#64).toNat = s.ip.toNat + 1 := by
  obtain ⟨-, -, -, -, -, hfits⟩ := s.admitted_iff.mp ha
  obtain ⟨hlt, -⟩ := List.getElem?_eq_some_iff.mp hw
  bv_omega

/-- A due step whose Execute succeeds applies its writes, advances `ip` and leaves `faulted` and `err` clear. -/
theorem step_of_execute_ok {s m : State} {w : InstrWord} (h : s.dueToStep = true)
    (hw : s.prog[s.ip.toNat]? = some w) (hx : execute (decode w) s.tick = .ok m) :
    step s = .next m.advanceIp ∧ m.advanceIp.ip.toNat = s.ip.toNat + 1 ∧ m.faulted = false ∧ m.err = 0#3 := by
  obtain ⟨-, -, -, hadmitted, hrunning⟩ := s.dueToStep_iff.mp h
  obtain ⟨-, -, -, herr, -⟩ := s.admitted_iff.mp hadmitted
  obtain ⟨-, hfaulted⟩ := s.terminal_eq_false_iff.mp hrunning
  obtain ⟨hmip, hmfaulted, hmerr⟩ := execute_sequencer_registers hx
  refine ⟨(step_eq_retire h hw).trans (congrArg (retire s.tick) hx), ?_, hmfaulted.trans hfaulted,
    hmerr.trans (herr.mpr hfaulted)⟩
  rw [State.advanceIp_ip, hmip]
  exact State.toNat_ip_add_one hadmitted hw

/-- A step that makes `ip` grow is a due step whose Execute succeeds: reset clears `ip`, every hold and every fault
keeps it. -/
theorem execute_ok_of_ip_lt {s t : State} (h : step s = .next t) (hip : s.ip.toNat < t.ip.toNat) :
    ∃ w m, s.dueToStep = true ∧ s.prog[s.ip.toNat]? = some w ∧ execute (decode w) s.tick = .ok m := by
  rcases step_cases h with ⟨-, -, rfl⟩ | ⟨p, -, -, -, rfl⟩ | ⟨-, -, -, rfl⟩ | ⟨-, -, -, -, rfl⟩ |
    ⟨-, -, -, -, -, -, rfl⟩ | ⟨w, hrst, hprog, hen, hadmitted, hrunning, hw, -⟩
  case inr.inr.inr.inr.inr =>
    have hdue : s.dueToStep = true := s.dueToStep_iff.mpr ⟨hrst, hprog, hen, hadmitted, hrunning⟩
    rcases retire_next ((step_eq_retire hdue hw).symm.trans h) with ⟨m, hm, -⟩ | ⟨e, -, rfl⟩
    · exact ⟨w, m, hdue, hw, hm⟩
    · simp at hip
  all_goals simp at hip

/-- Settles O30: a successful Execute advances `ip` past a word of the program, and no other edge makes it grow. -/
theorem successAdvancesIpByOne : Obligations.SuccessAdvancesIpByOne := by
  refine ⟨fun s m w hdue hw hx => ?_, fun s t h hip => ?_⟩
  · obtain ⟨hstep, hgrow, hfaulted, herr⟩ := step_of_execute_ok hdue hw hx
    exact ⟨m.advanceIp, hstep, rfl, hgrow, hfaulted, herr⟩
  · obtain ⟨w, m, hdue, hw, hx⟩ := execute_ok_of_ip_lt h hip
    obtain ⟨hstep, hgrow, -⟩ := step_of_execute_ok hdue hw hx
    obtain rfl : t = m.advanceIp := Host.Outcome.next.inj (h.symm.trans hstep)
    exact ⟨hgrow, w, m, hdue, hw, hx⟩

/-! ### The edges that hold (R105, R106) -/

/-- With `step_en = 0` an edge only takes note of the program supplied, where that breaks no run. -/
theorem step_of_stepEn_false {s : State} (hr : s.pins.rst = false) (he : s.pins.stepEn = false)
    (hduty : s.terminal = false → s.pins.newProg = none) : step s = .next (s.tick.supplied s.pins.newProg) := by
  have hbreaks : s.pins.breaksRun s.tick = false := (HostInputs.breaksRun_false_iff _ _).mpr hduty
  simp [step, clockEdge, hr, he, hbreaks]

/-- An edge that only takes note of the program supplied keeps the machine, and with no such program it uses up the
host's move and nothing more. -/
theorem step_holds_of_supplied {s : State} (h : step s = .next (s.tick.supplied s.pins.newProg)) :
    ∃ t, step s = .next t ∧ State.SameMachine s t ∧
      (s.pins.newProg = none → t = { s with inputs := s.inputs.tail }) := by
  refine ⟨_, h, State.sameMachine_tick_supplied s _, fun hnone => ?_⟩
  rw [hnone, State.supplied_none]
  rfl

/-- Settles O33: a terminal machine, stepped or held, only takes note of the program supplied. -/
theorem terminalStatesHold : Obligations.TerminalStatesHold := fun s hrst hadmitted hended =>
  step_holds_of_supplied (step_of_terminal hrst hadmitted (by simpa [State.terminal] using hended))

/-- Settles O34: a held machine, in any state, only takes note of the program supplied. -/
theorem holdChangesNothing : Obligations.HoldChangesNothing := fun _ hrst hen hduty =>
  step_holds_of_supplied (step_of_stepEn_false hrst hen hduty)

end Sys2Proof.Machine
end

section
/-! Taking a fault, and the flags that only reset clears (60_exceptions.md). -/

namespace Sys2Proof.Machine

/-! ### Taking a fault (R115) -/

/-- An instruction that sets `faulted` has failed in Execute: a success leaves `faulted` alone. -/
theorem exec_taking_fault {i : Instr} {s t : State} (hs : s.size.toNat ≤ 1024) (hclear : s.faulted = false)
    (h : exec i s = .next t) (hset : t.faulted = true) :
    ∃ e, execute i s = .error e ∧ t = s.takeFault (.execute e) := by
  rcases exec_next_cases hs h with ⟨m, hm, rfl⟩ | hfault
  · obtain ⟨-, hfaulted, -⟩ := execute_sequencer_registers hm
    have hstill : m.faulted = false := hfaulted.trans hclear
    exact absurd (hset.symm.trans hstill) (by decide)
  · exact hfault

/-- Settles O41: reset and the holds set no flag, so the fault is that of the fetch or of Execute, and each is recorded
by `takeFault` alone. -/
theorem takingAFaultWritesNothingElse : Obligations.TakingAFaultWritesNothingElse := by
  intro s t hclear h hset
  rcases step_cases h with ⟨-, -, rfl⟩ | ⟨p, -, -, -, rfl⟩ | ⟨-, -, -, rfl⟩ | ⟨-, -, -, -, rfl⟩ |
    ⟨-, -, -, -, -, hip, rfl⟩ | ⟨w, -, -, -, hadmitted, -, hw, hx⟩
  case inr.inr.inr.inr.inl => exact ⟨_, rfl, .inl ⟨rfl, hip⟩⟩
  case inr.inr.inr.inr.inr =>
    obtain ⟨hsize, -⟩ := s.admitted_iff.mp hadmitted
    obtain ⟨e, he, rfl⟩ := exec_taking_fault (s := s.tick) hsize hclear hx hset
    exact ⟨_, rfl, .inr ⟨w, e, hw, rfl, he⟩⟩
  all_goals simp [hclear] at hset

/-! ### The flags are sticky (R119, R21) -/

theorem State.terminal_of_faulted {s : State} (h : s.faulted = true) : s.terminal = true := by
  simp [State.terminal, h]

/-- Whatever next state an edge without reset answers from a terminal state, admitted or not, only takes note of the
program supplied: the fetch and the instruction are reached by a running machine alone. -/
theorem eq_tick_supplied_of_terminal {s t : State} (hr : s.pins.rst = false) (ht : s.terminal = true)
    (h : step s = .next t) : t = s.tick.supplied s.pins.newProg := by
  rcases step_cases h with ⟨hrst, -⟩ | ⟨p, hrst, -⟩ | ⟨-, -, -, hhold⟩ | ⟨-, -, -, -, hhold⟩ |
    ⟨-, -, -, -, hrunning, -⟩ | ⟨w, -, -, -, -, hrunning, -⟩
  case inl | inr.inl => simp [hr] at hrst
  case inr.inr.inl | inr.inr.inr.inl => exact hhold
  all_goals simp [ht] at hrunning

/-- Settles O42: either flag makes the state terminal, and a terminal machine keeps every flag until reset. -/
theorem flagsAreStickyUntilReset : Obligations.FlagsAreStickyUntilReset := by
  intro s t hrst h
  refine ⟨fun hfaulted => ?_, fun hhalted => ?_⟩
  · obtain rfl := eq_tick_supplied_of_terminal hrst (State.terminal_of_faulted hfaulted) h
    exact ⟨hfaulted, rfl⟩
  · obtain rfl := eq_tick_supplied_of_terminal hrst (State.terminal_of_halted hhalted) h
    exact hhalted

end Sys2Proof.Machine
end

section
/-! Reset: what the edge with `rst = 1` answers, and that nothing else at that edge counts (70_reset_and_hazards.md). -/

namespace Sys2Proof.Machine

/-! ### The reset edge (R131, R133) -/

/-- An edge with `rst = 1` is the reset edge, whatever `step_en` and the state: the hold, the terminal states and every
cause of a fault come after it (R131, decision D15). -/
theorem step_of_rst {s : State} (hr : s.pins.rst = true) : step s = resetEdge s.pins.newProg s.tick :=
  if_pos hr

theorem step_of_rst_same_program {s : State} (hr : s.pins.rst = true)
    (hp : s.pins.newProg.or s.nextProg = none) : step s = .next s.tick.clear := by
  simp [step_of_rst hr, resetEdge, hp]

theorem step_of_rst_new_program {s : State} {p : Program} (hr : s.pins.rst = true)
    (hp : s.pins.newProg.or s.nextProg = some p) (hfits : p.length < 2 ^ 64) :
    step s = .next { s.tick.clear with prog := p, nextProg := none } := by
  have hf : p.fits = true := decide_eq_true hfits
  simp [step_of_rst hr, resetEdge, hp, hf]

/-! ### The state after reset (R131) -/

@[simp] theorem State.control_clear (s : State) : s.clear.control = some .running := rfl

@[simp] theorem State.dumpValue_clear (s : State) : s.clear.dumpValue = [] := rfl

/-- Settles O35: reset with the same program clears the state; a new program that fits changes the two program fields
besides, on which neither the control state nor the live stack depends. -/
theorem resetWinsOverEverything : Obligations.ResetWinsOverEverything := by
  intro s hrst hfits
  cases hp : s.pins.newProg.or s.nextProg with
  | none =>
    exact ⟨s.tick.clear, step_of_rst_same_program hrst hp, rfl, rfl, rfl, rfl, rfl, rfl, s.tick.control_clear,
      s.tick.dumpValue_clear, rfl, fun _ => rfl⟩
  | some p =>
    exact ⟨_, step_of_rst_new_program hrst hp (hfits p hp), rfl, rfl, rfl, rfl, rfl, rfl, s.tick.control_clear,
      s.tick.dumpValue_clear, rfl, nofun⟩

end Sys2Proof.Machine
end

section
/-! The decoder and the encoder undo each other, the opcode table, and reading an image back (30_encoding.md R58 to R67,
20_memory.md R43). -/

namespace Sys2Proof

/-! ### The two round trips (R59 to R64) -/

/-- Settles O3: a declared kind's number selects its constructor, and the number a well-formed unknown kind carries is
from 7 on. -/
theorem decodeOfEncodeIsIdentity : Obligations.DecodeOfEncodeIsIdentity := by
  intro i hwf
  obtain ⟨hpush, hadd, hsub, hmul, hdiv, hjump, hhalt, hunknown⟩ := kindFieldAloneSelects i.operand
  cases i with
  | push n => exact hpush
  | add n => exact hadd
  | sub n => exact hsub
  | mul n => exact hmul
  | div n => exact hdiv
  | jump n => exact hjump
  | halt n => exact hhalt
  | unknown k n => exact hunknown k (of_decide_eq_true hwf)

/-- What the decoder keeps of a word: the number of its kind and its operand, in a well-formed instruction. -/
theorem decode_fields (w : InstrWord) :
    (decode w).wf = true ∧ (decode w).kindCode = kindField w ∧ (decode w).operand = operandField w := by
  rcases decode_cases w with ⟨hk, hd⟩ | ⟨hk, hd⟩ | ⟨hk, hd⟩ | ⟨hk, hd⟩ | ⟨hk, hd⟩ | ⟨hk, hd⟩ | ⟨hk, hd⟩ | ⟨hk, hd⟩
  case inr.inr.inr.inr.inr.inr.inr =>
    rw [hd]
    exact ⟨decide_eq_true hk, rfl, rfl⟩
  all_goals
    rw [hd]
    exact ⟨rfl, hk.symm, rfl⟩

/-- Settles O4: the decoded instruction carries both fields of the word. -/
theorem encodeOfDecodeIsIdentity : Obligations.EncodeOfDecodeIsIdentity := by
  intro w
  obtain ⟨hwf, hkind, hoperand⟩ := decode_fields w
  refine ⟨hwf, ?_⟩
  rw [encode, hkind, hoperand, packWord_fields]

/-! ### The table of matches and masks (R61) -/

/-- The number of an unknown kind is none of the declared ones. -/
theorem kindField_ne_of_unknown {w : InstrWord} {k : BitVec 8} (h : 7 ≤ (kindField w).toNat) (hk : k.toNat < 7) :
    kindField w ≠ k := by
  rintro rfl
  omega

/-- The row that selects the words of one kind number, whatever their operand. -/
def declaredRow (c : Kind) (k : BitVec 8) : OpcodeRow where
  kind := c
  pattern := packWord k 0#64
  mask := packWord 0xFF#8 0#64

theorem declaredRow_selects_iff (c : Kind) (k : BitVec 8) (w : InstrWord) :
    (declaredRow c k).selects w = true ↔ kindField w = k := by
  have hmasked : w &&& packWord 0xFF#8 0#64 = packWord (kindField w) 0#64 := by
    conv_lhs => rw [← packWord_fields w, packWord, packWord, BitVec.and_append, BitVec.and_zero]
    rw [show (0xFF#8 : BitVec 8) = BitVec.allOnes 8 from rfl, BitVec.and_allOnes, packWord]
  rw [OpcodeRow.selects, declaredRow, decide_eq_true_eq, hmasked]
  refine ⟨fun h => ?_, fun h => by rw [h]⟩
  simpa using congrArg kindField h

theorem take_opcodeRows :
    opcodeRows.take 7 =
      [declaredRow .push 0#8, declaredRow .add 1#8, declaredRow .sub 2#8, declaredRow .mul 3#8, declaredRow .div 4#8,
       declaredRow .jump 5#8, declaredRow .halt 6#8] := by decide

/-- The last row selects every word. -/
theorem drop_opcodeRows_selects (w : InstrWord) :
    (opcodeRows.drop 7).find? (fun r => r.selects w) = some ⟨.unknown, 0#72, 0#72⟩ := by
  simp [opcodeRows, OpcodeRow.selects]

/-- Each declared row is the row of its own kind number, and its class is what the decoder says of that number. -/
theorem eq_declaredRow_of_mem {r : OpcodeRow} (h : r ∈ opcodeRows.take 7) :
    ∃ k, r = declaredRow (decode (packWord k 0#64)).kind k := by
  rw [take_opcodeRows] at h
  simp only [List.mem_cons, List.not_mem_nil, or_false] at h
  rcases h with rfl | rfl | rfl | rfl | rfl | rfl | rfl
  exacts [⟨0#8, rfl⟩, ⟨1#8, rfl⟩, ⟨2#8, rfl⟩, ⟨3#8, rfl⟩, ⟨4#8, rfl⟩, ⟨5#8, rfl⟩, ⟨6#8, rfl⟩]

/-- A declared row that selects a word is the row of the word's own kind number. -/
theorem eq_declaredRow_of_selects {r : OpcodeRow} {w : InstrWord} (hr : r ∈ opcodeRows.take 7)
    (hs : r.selects w = true) : r = declaredRow (decode (packWord (kindField w) 0#64)).kind (kindField w) := by
  obtain ⟨k, rfl⟩ := eq_declaredRow_of_mem hr
  rw [(declaredRow_selects_iff _ k w).mp hs]

/-- The first row of the table that selects a word has the class the decoder gives it. -/
theorem find?_opcodeRows_kind (w : InstrWord) :
    (opcodeRows.find? (fun r => r.selects w)).map (fun r => r.kind) = some (decode w).kind := by
  have hselects (c : Kind) (k : BitVec 8) : (declaredRow c k).selects w = decide (kindField w = k) := by
    rw [Bool.eq_iff_iff, declaredRow_selects_iff, decide_eq_true_eq]
  rw [← List.take_append_drop 7 opcodeRows, List.find?_append, take_opcodeRows, drop_opcodeRows_selects]
  simp only [List.find?_cons, hselects, List.find?_nil]
  rcases decode_cases w with ⟨hk, hd⟩ | ⟨hk, hd⟩ | ⟨hk, hd⟩ | ⟨hk, hd⟩ | ⟨hk, hd⟩ | ⟨hk, hd⟩ | ⟨hk, hd⟩ | ⟨hk, hd⟩
  case inr.inr.inr.inr.inr.inr.inr =>
    simp [hd, kindField_ne_of_unknown hk, Instr.kind]
  all_goals
    rw [hk, hd]
    rfl

/-- Settles O5: a declared row compares the kind field alone, so it selects the words of its own class and no others. -/
theorem decodingFollowsMatchAndMask : Obligations.DecodingFollowsMatchAndMask :=
  ⟨find?_opcodeRows_kind, fun _ _ _ hp hq hps hqs =>
    (eq_declaredRow_of_selects hp hps).trans (eq_declaredRow_of_selects hq hqs).symm⟩

/-! ### The worked encodings, and the canonical words (30_encoding.md sections 5 and 6) -/

/-- Settles O1: each is the word of a kind number and an operand. -/
theorem workedEncodingsDecode : Obligations.WorkedEncodingsDecode :=
  ⟨rfl, rfl, rfl, rfl, rfl, rfl, rfl, rfl, rfl, rfl, rfl, rfl, rfl, rfl⟩

/-- Settles O9: the kind field selects the instruction, and its canonical form has operand zero or the word's own. -/
theorem canonicalWordsZeroTheIgnoredOperand : Obligations.CanonicalWordsZeroTheIgnoredOperand := by
  intro n
  obtain ⟨hpush, hadd, hsub, hmul, hdiv, hjump, hhalt, -⟩ := kindFieldAloneSelects n
  rw [hpush, hadd, hsub, hmul, hdiv, hjump, hhalt]
  exact ⟨rfl, rfl, (by decide : canonicalWord (.add 0#64) = _), (by decide : canonicalWord (.sub 0#64) = _),
    (by decide : canonicalWord (.mul 0#64) = _), (by decide : canonicalWord (.div 0#64) = _),
    (by decide : canonicalWord (.halt 0#64) = _)⟩

/-! ### Reading an image back (20_memory.md R43) -/

/-- The nine bytes of a record, put together from the most significant on, are the word. -/
theorem append_bytes_eq (w : InstrWord) :
    w.extractLsb' 64 8 ++ w.extractLsb' 56 8 ++ w.extractLsb' 48 8 ++ w.extractLsb' 40 8 ++ w.extractLsb' 32 8 ++
      w.extractLsb' 24 8 ++ w.extractLsb' 16 8 ++ w.extractLsb' 8 8 ++ w.extractLsb' 0 8 = w := by
  have hjoin (i n : Nat) : w.extractLsb' (i + 8) n ++ w.extractLsb' i 8 = w.extractLsb' i (n + 8) :=
    BitVec.extractLsb'_append_extractLsb'_eq_extractLsb' rfl
  rw [hjoin 56 8, hjoin 48 16, hjoin 40 24, hjoin 32 32, hjoin 24 40, hjoin 16 48, hjoin 8 56, hjoin 0 64]
  exact BitVec.extractLsb'_eq_self

theorem programOfImage_programImage (p : Program) : programOfImage (programImage p) = .ok p := by
  induction p with
  | nil => rfl
  | cons w p ih =>
    simp only [programImage, wordBytes, List.cons_append, List.nil_append, programOfImage, ih]
    rw [append_bytes_eq]

/-- A record taken off leaves the bytes that are missing to a whole number of records. -/
theorem programOfImage_truncated {bs : List Byte} (h : bs.length % 9 ≠ 0) :
    programOfImage bs = .error .truncatedRecord := by
  fun_induction programOfImage bs with
  | case1 => exact absurd rfl h
  | case2 b0 b1 b2 b3 b4 b5 b6 b7 b8 rest p hp ih =>
    have hrest : rest.length % 9 ≠ 0 := by simp only [List.length_cons] at h; omega
    exact absurd (hp.symm.trans (ih hrest)) (by simp)
  | case3 b0 b1 b2 b3 b4 b5 b6 b7 b8 rest e he ih =>
    have hrest : rest.length % 9 ≠ 0 := by simp only [List.length_cons] at h; omega
    exact he.symm.trans (ih hrest)
  | case4 => rfl

/-- Settles O7, by induction on the program and on the records of the bytes. -/
theorem imageReadsBackAsItsProgram : Obligations.ImageReadsBackAsItsProgram :=
  ⟨programOfImage_programImage, fun _ => programOfImage_truncated⟩

end Sys2Proof
end

section
/-! The invariant: reset has it, every step keeps it, and from it the machine always steps (10_state.md R34,
70_reset_and_hazards.md R137). -/

namespace Sys2Proof.Machine

/-! ### The RAM (20_memory.md R50) -/

/-- Settles O54: the laws of the RAM's write. -/
theorem stackRamReadsTheLatestWrite : Obligations.StackRamReadsTheLatestWrite := fun m i _ v =>
  ⟨Memory.read_write_same m i v, Memory.read_write_other m v, Memory.wf_write v⟩

/-! ### The stack under a successful Execute -/

/-- The part of the invariant that speaks of the stack. -/
def State.StackInv (s : State) : Prop := s.size.toNat ≤ 1024 ∧ Memory.wf s.stack ∧ s.liveWritten

/-- A push writes the slot it makes live. -/
theorem State.stackInv_pushed {s : State} (v : Word) (h : s.StackInv) (hroom : s.size.toNat ≠ 1024) :
    (s.pushed v).StackInv := by
  obtain ⟨hle, hwf, hlive⟩ := h
  have hlt : s.size.toNat < 1024 := by omega
  have hsize := s.size_pushed v hlt
  refine ⟨by omega, Memory.wf_write v hwf hlt, fun i hi => ?_⟩
  by_cases htop : i = s.size.toNat
  · rw [htop, State.pushed_stack, Memory.find?_write_same]
    rfl
  · exact Memory.find?_write_isSome v (hlive i (by omega))

/-- A combination writes a live slot and makes the one above it dead. -/
theorem State.stackInv_combined {s : State} (r : Word) (h : s.StackInv) (h2 : 2 ≤ s.size.toNat) :
    (s.combined r).StackInv := by
  obtain ⟨hle, hwf, hlive⟩ := h
  have hsize := s.size_combined r h2
  have hslot : s.size.toNat - 2 < 1024 := by omega
  exact ⟨by omega, Memory.wf_write r hwf hslot, fun i hi => Memory.find?_write_isSome r (hlive i (by omega))⟩

theorem execute_keeps_stackInv {i : Instr} {s m : State} (h : s.StackInv) (hx : execute i s = .ok m) :
    m.StackInv := by
  rcases execute_ok_cases hx with ⟨n, -, hroom, rfl⟩ | ⟨r, h2, rfl, -⟩ | ⟨-, rfl⟩
  · exact State.stackInv_pushed n h hroom
  · exact State.stackInv_combined r h h2
  · exact h

theorem execute_sameHost {i : Instr} {s m : State} (h : execute i s = .ok m) : State.SameHost s m := by
  rcases execute_ok_cases h with ⟨n, -, -, rfl⟩ | ⟨r, -, rfl, -⟩ | ⟨-, rfl⟩ <;> exact ⟨rfl, rfl, rfl, rfl⟩

/-! ### What keeps the invariant -/

theorem State.Inv.admitted {s : State} (h : s.Inv) : s.admitted = true := h.1

theorem State.Inv.stackInv {s : State} (h : s.Inv) : s.StackInv := by
  obtain ⟨hadmitted, hwf, hlive, -⟩ := h
  exact ⟨(s.admitted_iff.mp hadmitted).1, hwf, hlive⟩

/-- No changed program waits behind a run that has not ended. -/
theorem State.Inv.nextProg_eq_none {s : State} (h : s.Inv) (hrunning : s.terminal = false) : s.nextProg = none := by
  obtain ⟨-, -, -, hwaits⟩ := h
  cases hn : s.nextProg with
  | none => rfl
  | some p => exact absurd (hwaits (by simp [hn])) (by simp [hrunning])

/-- After reset there is no live slot, so only the RAM's form, the program and what waits for it matter. -/
theorem State.inv_clear {s : State} (hwf : Memory.wf s.stack) (hprog : s.prog.length < 2 ^ 64)
    (hnext : s.nextProg = none) : s.clear.Inv := by
  refine ⟨s.clear.admitted_iff.mpr ?_, hwf, fun i hi => absurd hi (Nat.not_lt_zero i), fun hw => ?_⟩
  · exact ⟨Nat.zero_le _, Nat.zero_le _, Nat.zero_le _, by simp, by simp, hprog⟩
  · simp [hnext] at hw

/-- Every cause has a code, and none of them is the code of no fault. -/
theorem Cause.code_bounds (c : Cause) : c.code.toNat ≤ 5 ∧ c.code ≠ 0#3 := by
  rcases c with e | _
  · cases e <;> decide
  · decide

theorem State.Inv.takeFault {s : State} (h : s.Inv) (hrunning : s.terminal = false) (c : Cause) :
    (s.takeFault c).Inv := by
  obtain ⟨hadmitted, hwf, hlive, -⟩ := h
  obtain ⟨hsize, hip, -, -, -, hfits⟩ := s.admitted_iff.mp hadmitted
  obtain ⟨hhalted, -⟩ := s.terminal_eq_false_iff.mp hrunning
  obtain ⟨hcode, hset⟩ := c.code_bounds
  refine ⟨(s.takeFault c).admitted_iff.mpr ⟨hsize, hip, hcode, ?_, ?_, hfits⟩, hwf, hlive,
    fun _ => State.terminal_of_faulted rfl⟩
  · simp [hset]
  · simp [hhalted]

/-- A successful Execute of a word of the program keeps the invariant once `ip` has advanced past the word. -/
theorem State.Inv.advanceIp_of_execute_ok {s m : State} {w : InstrWord} (h : s.Inv) (hrunning : s.terminal = false)
    (hw : s.prog[s.ip.toNat]? = some w) (hx : execute (decode w) s = .ok m) : m.advanceIp.Inv := by
  obtain ⟨hle, hwf, hlive⟩ := execute_keeps_stackInv h.stackInv hx
  obtain ⟨hip, hfaulted, herr⟩ := execute_sequencer_registers hx
  obtain ⟨hprog, hnext, -, -⟩ := execute_sameHost hx
  have hnone := h.nextProg_eq_none hrunning
  obtain ⟨-, hclear⟩ := s.terminal_eq_false_iff.mp hrunning
  obtain ⟨hadmitted, -⟩ := h
  obtain ⟨-, -, hcode, hset, -, hfits⟩ := s.admitted_iff.mp hadmitted
  obtain ⟨hlt, -⟩ := List.getElem?_eq_some_iff.mp hw
  have hgrow := State.toNat_ip_add_one hadmitted hw
  refine ⟨m.advanceIp.admitted_iff.mpr ⟨hle, ?_, ?_, ?_, ?_, ?_⟩, hwf, hlive, ?_⟩
  · rw [State.advanceIp_ip, State.advanceIp_prog, hip, hprog, hgrow]
    exact hlt
  · rwa [State.advanceIp_err, herr]
  · rwa [State.advanceIp_err, State.advanceIp_faulted, herr, hfaulted]
  · simp [hfaulted, hclear]
  · rwa [State.advanceIp_prog, hprog]
  · simp [hnext, hnone]

/-- A program supplied where it breaks no run waits behind a run that has ended. -/
theorem State.Inv.tick_supplied {s : State} (h : s.Inv) {q : Option Program}
    (hduty : s.terminal = false → q = none) : (s.tick.supplied q).Inv := by
  have hnone := h.nextProg_eq_none
  obtain ⟨hadmitted, hwf, hlive, -⟩ := h
  refine ⟨hadmitted, hwf, hlive, fun hwaits => ?_⟩
  cases ht : s.terminal with
  | true => exact ht
  | false => simp [hduty ht, hnone ht] at hwaits

theorem State.Inv.tick {s : State} (h : s.Inv) : s.tick.Inv := h

/-! ### The statements -/

/-- Settles O48: the reset state is a cleared state whose RAM nothing has written. -/
theorem resetStateIsAdmitted : Obligations.ResetStateIsAdmitted :=
  State.inv_clear (s := State.reset) Memory.wf_nil (Nat.two_pow_pos 64) rfl

/-- Settles O49, by cases on what the edge was: each kind of edge keeps the invariant. -/
theorem everyStepKeepsTheInvariant : Obligations.EveryStepKeepsTheInvariant := by
  intro s t hinv h
  obtain ⟨hsize, hwf, -⟩ := hinv.stackInv
  obtain ⟨-, -, -, -, -, hfits⟩ := s.admitted_iff.mp hinv.admitted
  rcases step_cases h with ⟨-, hnone, rfl⟩ | ⟨p, -, -, hp, rfl⟩ | ⟨-, hduty, -, rfl⟩ | ⟨-, -, -, hended, rfl⟩ |
    ⟨-, -, -, -, hrunning, -, rfl⟩ | ⟨w, -, -, -, -, hrunning, hw, hx⟩
  case inl => exact State.inv_clear hwf hfits (Option.or_eq_none_iff.mp hnone).2
  case inr.inl => exact State.inv_clear (s := { s.tick with prog := p, nextProg := none }) hwf hp rfl
  case inr.inr.inl => exact hinv.tick_supplied hduty
  case inr.inr.inr.inl => exact hinv.tick_supplied fun hrunning => by simp [hended] at hrunning
  case inr.inr.inr.inr.inl => exact hinv.tick.takeFault hrunning .fetchOutOfRange
  case inr.inr.inr.inr.inr =>
    rcases exec_next_cases (s := s.tick) hsize hx with ⟨m, hm, rfl⟩ | ⟨e, -, rfl⟩
    · exact hinv.tick.advanceIp_of_execute_ok hrunning hw hm
    · exact hinv.tick.takeFault hrunning (.execute e)

/-- The sequencer's end of an instruction always answers a next state. -/
theorem retire_answers (s : State) (x : Executed) : ∃ t, retire s x = .next t := by
  cases x with
  | ok m => exact ⟨_, rfl⟩
  | error e => exact ⟨_, rfl⟩

theorem step_of_dueToStep_answers {s : State} (h : s.dueToStep = true) : ∃ t, step s = .next t := by
  cases hw : s.prog[s.ip.toNat]? with
  | none => exact ⟨_, step_of_fetch_out_of_range h (List.getElem?_eq_none_iff.mp hw)⟩
  | some w =>
    rw [step_eq_retire h hw]
    exact retire_answers _ _

/-- Settles O53: in the order of the sequencer's checks, each edge has an answer. -/
theorem admittedStatesAlwaysStep : Obligations.AdmittedStatesAlwaysStep := by
  rintro s ⟨hadmitted, -⟩ hfits hduty
  cases hr : s.pins.rst with
  | true =>
    cases hp : s.pins.newProg.or s.nextProg with
    | none => exact ⟨_, step_of_rst_same_program hr hp⟩
    | some p => exact ⟨_, step_of_rst_new_program hr hp (hfits hr p hp)⟩
  | false =>
    cases ht : s.terminal with
    | true => exact ⟨_, step_of_terminal hr hadmitted ht⟩
    | false =>
      cases he : s.pins.stepEn with
      | false => exact ⟨_, step_of_stepEn_false hr he (hduty hr)⟩
      | true => exact step_of_dueToStep_answers (s.dueToStep_iff.mpr ⟨hr, hduty hr ht, he, hadmitted, ht⟩)

end Sys2Proof.Machine
end

section
/-! Dead slots are never seen: two machines that differ in dead slots alone stay so, step by step (10_state.md R16). -/

namespace Sys2Proof.Machine

/-! ### Two states with the same live part -/

/-- Such states agree in everything the sequencer looks at. -/
theorem State.SameLive.sequencer {s s' : State} (h : State.SameLive s s') :
    s'.pins = s.pins ∧ s'.admitted = s.admitted ∧ s'.terminal = s.terminal ∧ s'.dueToStep = s.dueToStep := by
  obtain ⟨hsize, hip, ⟨hhalted, hfaulted, herr⟩, ⟨hprog, -, hinputs, hidle⟩, -⟩ := h
  have hpins : s'.pins = s.pins := by simp [State.pins, hinputs, hidle]
  have hadmitted : s'.admitted = s.admitted := by simp [State.admitted, hsize, hip, hhalted, hfaulted, herr, hprog]
  have hterminal : s'.terminal = s.terminal := by simp [State.terminal, hhalted, hfaulted]
  exact ⟨hpins, hadmitted, hterminal, by simp [State.dueToStep, hpins, hadmitted, hterminal]⟩

/-- What the next run and the fetch take from the programs is the same. -/
theorem State.SameLive.programs {s s' : State} (h : State.SameLive s s') :
    s'.nextProg = s.nextProg ∧ s'.prog[s'.ip.toNat]? = s.prog[s.ip.toNat]? ∧
      (s'.prog.length ≤ s'.ip.toNat ↔ s.prog.length ≤ s.ip.toNat) := by
  obtain ⟨-, hip, -, ⟨hprog, hnext, -, -⟩, -⟩ := h
  rw [hprog, hip]
  exact ⟨hnext, rfl, Iff.rfl⟩

theorem State.SameLive.stackFull {s s' : State} (h : State.SameLive s s') : s'.stackFull = s.stackFull := by
  obtain ⟨hsize, -⟩ := h
  rw [State.stackFull, State.stackFull, hsize]

theorem State.SameLive.stackShort {s s' : State} (h : State.SameLive s s') : s'.stackShort = s.stackShort := by
  obtain ⟨hsize, -⟩ := h
  rw [State.stackShort, State.stackShort, hsize]

/-! ### The updates of the state keep two such states alike -/

theorem State.SameLive.tick {s s' : State} (h : State.SameLive s s') : State.SameLive s.tick s'.tick := by
  obtain ⟨hsize, hip, hflags, ⟨hprog, hnext, hinputs, hidle⟩, hlive⟩ := h
  exact ⟨hsize, hip, hflags, ⟨hprog, hnext, congrArg List.tail hinputs, hidle⟩, hlive⟩

theorem State.SameLive.advanceIp {s s' : State} (h : State.SameLive s s') :
    State.SameLive s.advanceIp s'.advanceIp := by
  obtain ⟨hsize, hip, hflags, hhost, hlive⟩ := h
  exact ⟨hsize, congrArg (· + 1#64) hip, hflags, hhost, hlive⟩

theorem State.SameLive.takeFault {s s' : State} (h : State.SameLive s s') (c : Cause) :
    State.SameLive (s.takeFault c) (s'.takeFault c) := by
  obtain ⟨hsize, hip, ⟨hhalted, -, -⟩, hhost, hlive⟩ := h
  exact ⟨hsize, hip, ⟨hhalted, rfl, rfl⟩, hhost, hlive⟩

theorem State.SameLive.supplied {s s' : State} (h : State.SameLive s s') (q : Option Program) :
    State.SameLive (s.supplied q) (s'.supplied q) := by
  obtain ⟨hsize, hip, hflags, ⟨hprog, hnext, hinputs, hidle⟩, hlive⟩ := h
  exact ⟨hsize, hip, hflags, ⟨hprog, congrArg q.or hnext, hinputs, hidle⟩, hlive⟩

/-- After reset no slot is live, so the two RAMs need not agree anywhere. -/
theorem State.SameLive.clear {s s' : State} (h : State.SameLive s s') : State.SameLive s.clear s'.clear := by
  obtain ⟨-, -, -, hhost, -⟩ := h
  exact ⟨rfl, rfl, ⟨rfl, rfl, rfl⟩, hhost, fun i hi => absurd hi (Nat.not_lt_zero i)⟩

theorem State.SameLive.withProgram {s s' : State} (h : State.SameLive s s') (p : Program) :
    State.SameLive { s with prog := p, nextProg := none } { s' with prog := p, nextProg := none } := by
  obtain ⟨hsize, hip, hflags, ⟨-, -, hinputs, hidle⟩, hlive⟩ := h
  exact ⟨hsize, hip, hflags, ⟨rfl, rfl, hinputs, hidle⟩, hlive⟩

theorem State.SameLive.withHalted {s s' : State} (h : State.SameLive s s') :
    State.SameLive { s with halted := true } { s' with halted := true } := by
  obtain ⟨hsize, hip, ⟨-, hfaulted, herr⟩, hhost, hlive⟩ := h
  exact ⟨hsize, hip, ⟨rfl, hfaulted, herr⟩, hhost, hlive⟩

/-- A push overwrites the one slot it makes live. -/
theorem State.SameLive.pushed {s s' : State} (h : State.SameLive s s') (v : Word) :
    State.SameLive (s.pushed v) (s'.pushed v) := by
  obtain ⟨hsize, hip, hflags, hhost, hlive⟩ := h
  refine ⟨congrArg (· + 1#11) hsize, hip, hflags, hhost, fun i hi => ?_⟩
  by_cases htop : i = s.size.toNat
  · rw [htop, State.slot_pushed_same, ← hsize, State.slot_pushed_same]
  · have hbelow : i < s.size.toNat := by
      rw [State.pushed_size] at hi
      bv_omega
    rw [State.slot_pushed_other s v htop, State.slot_pushed_other s' v (hsize ▸ htop), hlive i hbelow]

/-- A combination makes no slot live. -/
theorem State.SameLive.combined {s s' : State} (h : State.SameLive s s') (h2 : 2 ≤ s.size.toNat) (r : Word) :
    State.SameLive (s.combined r) (s'.combined r) := by
  obtain ⟨hsize, hip, hflags, hhost, hlive⟩ := h
  refine ⟨congrArg (· - 1#11) hsize, hip, hflags, hhost, fun i hi => ?_⟩
  by_cases hsecond : i = s.size.toNat - 2
  · rw [hsecond, State.slot_combined_same, ← hsize, State.slot_combined_same]
  · have hshrinks := s.size_combined r h2
    rw [State.slot_combined_other s r hsecond, State.slot_combined_other s' r (hsize ▸ hsecond),
      hlive i (by omega)]

/-- The operands of arithmetic are live slots. -/
theorem State.SameLive.operands {s s' : State} (h : State.SameLive s s') (h2 : 2 ≤ s.size.toNat) :
    s'.leftOperand = s.leftOperand ∧ s'.rightOperand = s.rightOperand := by
  obtain ⟨hsize, -, -, -, hlive⟩ := h
  rw [State.leftOperand, State.rightOperand, State.secondIndex, State.topIndex, hsize]
  exact ⟨hlive _ (by omega), hlive _ (by omega)⟩

/-- What is seen of a run that has ended depends on the live part alone. -/
theorem State.SameLive.result {s s' : State} (h : State.SameLive s s') : s'.result = s.result := by
  obtain ⟨hsize, hip, ⟨hhalted, hfaulted, herr⟩, -, hlive⟩ := h
  have hdump : s'.dumpValue = s.dumpValue := by
    rw [State.dumpValue, State.dumpValue, hsize]
    exact List.map_congr_left fun i hi => hlive i (List.mem_range.mp hi)
  rw [State.result, State.result, hdump, hsize, hip, hhalted, hfaulted, herr]

/-! ### Execute -/

/-- Two results of Execute with the same live part: the same error, or states that differ in dead slots alone. -/
def Executed.SameLive : Executed → Executed → Prop
  | .ok m, .ok m' => State.SameLive m m'
  | .error e, .error e' => e' = e
  | .ok _, .error _ => False
  | .error _, .ok _ => False

section Execute

variable {s s' : State}

theorem executePush_sameLive (h : State.SameLive s s') (n : Word) :
    Executed.SameLive (executePush n s) (executePush n s') := by
  rw [executePush, executePush, h.stackFull]
  split
  · rfl
  · exact h.pushed n

theorem executeBinary_sameLive (h : State.SameLive s s') (f : Word → Word → Word) :
    Executed.SameLive (executeBinary f s) (executeBinary f s') := by
  rw [executeBinary, executeBinary, h.stackShort]
  split
  · rfl
  · next hlong =>
    have h2 : 2 ≤ s.size.toNat := Nat.le_of_not_lt fun hlt => hlong (s.stackShort_iff.mpr hlt)
    obtain ⟨hleft, hright⟩ := h.operands h2
    rw [hleft, hright]
    exact h.combined h2 _

theorem executeDivision_sameLive (h : State.SameLive s s') (f : Word → Word → Word) :
    Executed.SameLive (executeDivision f s) (executeDivision f s') := by
  rw [executeDivision, executeDivision, h.stackShort]
  split
  · rfl
  · next hlong =>
    have h2 : 2 ≤ s.size.toNat := Nat.le_of_not_lt fun hlt => hlong (s.stackShort_iff.mpr hlt)
    obtain ⟨hleft, hright⟩ := h.operands h2
    rw [hleft, hright]
    split
    · rfl
    · exact h.combined h2 _

theorem execute_sameLive (h : State.SameLive s s') (i : Instr) :
    Executed.SameLive (execute i s) (execute i s') := by
  cases i with
  | push n => exact executePush_sameLive h n
  | add _ => exact executeBinary_sameLive h fAdd
  | sub _ => exact executeBinary_sameLive h fSub
  | mul _ => exact executeBinary_sameLive h fMul
  | div _ => exact executeDivision_sameLive h fDiv
  | halt _ => exact h.withHalted
  | jump _ | unknown _ _ => rfl

/-- The sequencer's end of two such results. -/
theorem retire_sameLive {x x' : Executed} (h : State.SameLive s s') (hx : Executed.SameLive x x') {t : State}
    (ht : retire s x = .next t) : ∃ t', retire s' x' = .next t' ∧ State.SameLive t t' := by
  cases x with
  | ok m =>
    cases x' with
    | ok m' =>
      obtain rfl : m.advanceIp = t := Host.Outcome.next.inj ht
      exact ⟨m'.advanceIp, rfl, State.SameLive.advanceIp hx⟩
    | error e' => exact hx.elim
  | error e =>
    cases x' with
    | ok m' => exact hx.elim
    | error e' =>
      obtain rfl : e' = e := hx
      obtain rfl : s.takeFault (.execute e') = t := Host.Outcome.next.inj ht
      exact ⟨s'.takeFault (.execute e'), rfl, h.takeFault _⟩

end Execute

/-! ### The step, and runs -/

/-- Two machines that differ in dead slots alone make the same kind of edge, and differ in dead slots alone after it. -/
theorem step_sameLive {s s' t : State} (h : State.SameLive s s') (hstep : step s = .next t) :
    ∃ t', step s' = .next t' ∧ State.SameLive t t' := by
  obtain ⟨hpins, hadmitted, hterminal, hdue⟩ := h.sequencer
  obtain ⟨hnext, hfetch, hlength⟩ := h.programs
  rcases step_cases hstep with ⟨hr, hnone, rfl⟩ | ⟨p, hr, hp, hfits, rfl⟩ | ⟨hr, hduty, he, rfl⟩ |
    ⟨hr, -, ha, ht, rfl⟩ | ⟨hr, hkeep, he, ha, ht, hip, rfl⟩ | ⟨w, hr, hkeep, he, ha, ht, hw, -⟩
  case inl =>
    exact ⟨_, step_of_rst_same_program (hpins ▸ hr) (by rw [hpins, hnext, hnone]), h.tick.clear⟩
  case inr.inl =>
    exact ⟨_, step_of_rst_new_program (hpins ▸ hr) (by rw [hpins, hnext, hp]) hfits, h.tick.clear.withProgram p⟩
  case inr.inr.inl =>
    refine ⟨_, step_of_stepEn_false (hpins ▸ hr) (hpins ▸ he) (by rwa [hpins, hterminal]), ?_⟩
    rw [hpins]
    exact h.tick.supplied _
  case inr.inr.inr.inl =>
    refine ⟨_, step_of_terminal (hpins ▸ hr) (hadmitted ▸ ha) (hterminal ▸ ht), ?_⟩
    rw [hpins]
    exact h.tick.supplied _
  case inr.inr.inr.inr.inl =>
    have hdueToStep := s.dueToStep_iff.mpr ⟨hr, hkeep, he, ha, ht⟩
    exact ⟨_, step_of_fetch_out_of_range (hdue.trans hdueToStep) (by rwa [hlength]), h.tick.takeFault _⟩
  case inr.inr.inr.inr.inr =>
    have hdueToStep := s.dueToStep_iff.mpr ⟨hr, hkeep, he, ha, ht⟩
    have hword : s'.prog[s'.ip.toNat]? = some w := hfetch.trans hw
    rw [step_eq_retire (hdue.trans hdueToStep) hword]
    rw [step_eq_retire hdueToStep hw] at hstep
    exact retire_sameLive h.tick (execute_sameLive h.tick (decode w)) hstep

/-- Settles O50, by induction on the number of steps. -/
theorem deadSlotsAreNeverSeen : Obligations.DeadSlotsAreNeverSeen := by
  intro k
  induction k with
  | zero =>
    intro s s' t h hrun
    obtain rfl : s = t := Host.Outcome.next.inj hrun
    exact ⟨s', rfl, h, h.result⟩
  | succ k ih =>
    intro s s' t h hrun
    obtain ⟨u, hu, hrest⟩ := run_succ_next hrun
    obtain ⟨u', hu', hlive⟩ := step_sameLive h hu
    obtain ⟨t', ht', hend⟩ := ih u u' t hlive hrest
    exact ⟨t', (run_succ_of_next hu').trans ht', hend⟩

end Sys2Proof.Machine
end

section
/-! Execute as a whole: when each error is raised, what a success leaves alone, and its place in `exec`
(43_fetch_execute.md R97 to R101, 60_exceptions.md section 1). -/

namespace Sys2Proof.Machine

/-! ### When each error is raised (60_exceptions.md R111, R112, R114, R116) -/

theorem executePush_error_iff (n : Word) (s : State) (e : ErrorKind) :
    executePush n s = .error e ↔ .stackOverflow = e ∧ s.size.toNat = 1024 := by
  rcases executePush_cases n s with ⟨hfull, hx⟩ | ⟨hroom, hx⟩
  · simp [hx, hfull]
  · simp [hx, hroom]

theorem executeBinary_error_iff (f : Word → Word → Word) (s : State) (e : ErrorKind) :
    executeBinary f s = .error e ↔ .stackUnderflow = e ∧ s.size.toNat < 2 := by
  rcases executeBinary_cases f s with ⟨hshort, hx⟩ | ⟨h2, hx⟩
  · simp [hx, hshort]
  · simp [hx, Nat.not_lt.mpr h2]

theorem executeDivision_error_iff (f : Word → Word → Word) (s : State) (e : ErrorKind) :
    executeDivision f s = .error e ↔
      (.stackUnderflow = e ∧ s.size.toNat < 2) ∨ (.divideByZero = e ∧ 2 ≤ s.size.toNat ∧ s.rightOperand = 0#64) := by
  rcases executeDivision_cases f s with ⟨hshort, hx⟩ | ⟨h2, hzero, hx⟩ | ⟨h2, hne, hx⟩
  · simp [hx, hshort]
  · simp [hx, h2, hzero, Nat.not_lt.mpr h2]
  · simp [hx, hne, Nat.not_lt.mpr h2]

/-- Settles O23: one row of the decoder at a time, with the errors of its class. -/
theorem errorsAreRaisedExactlyWhen : Obligations.ErrorsAreRaisedExactlyWhen := by
  intro w s
  change (_ ↔ kindField w = _ ∧ _) ∧ (_ ↔ (1 ≤ (kindField w).toNat ∧ (kindField w).toNat ≤ 4) ∧ _) ∧
    (_ ↔ kindField w = _ ∧ _ ∧ s.rightOperand = _) ∧ (_ ↔ kindField w = _ ∨ 7 ≤ (kindField w).toNat)
  rcases decode_cases w with ⟨hk, hd⟩ | ⟨hk, hd⟩ | ⟨hk, hd⟩ | ⟨hk, hd⟩ | ⟨hk, hd⟩ | ⟨hk, hd⟩ | ⟨hk, hd⟩ | ⟨hk, hd⟩
  case inr.inr.inr.inr.inr.inr.inr =>
    have hdeclared : ¬ (kindField w).toNat ≤ 4 := by omega
    simp [hd, execute, executeUnknown, kindField_ne_of_unknown hk, hdeclared, hk]
  all_goals
    simp [hd, hk, execute, executeAdd, executeSub, executeMul, executeDiv, executeJump, executeHalt,
      executePush_error_iff, executeBinary_error_iff, executeDivision_error_iff]

/-- Settles O22: the count and then the divisor, in the order of Div's three cases. -/
theorem divChecksTheCountFirst : Obligations.DivChecksTheCountFirst := by
  intro n s
  rcases executeDivision_cases fDiv s with ⟨hshort, hx⟩ | ⟨h2, hzero, hx⟩ | ⟨h2, hne, hx⟩
  · exact ⟨fun _ => hx, fun h => absurd h (by omega), fun h => absurd h (by omega)⟩
  · exact ⟨fun h => absurd h (by omega), fun _ _ => hx, fun _ hb => absurd hzero hb⟩
  · exact ⟨fun h => absurd h (by omega), fun _ hb => absurd hb hne, fun _ _ => ⟨_, hx⟩⟩

/-! ### What a success leaves alone, and what Execute does not read (R98) -/

/-- An instruction but Halt that succeeds leaves `halted` alone. -/
theorem execute_halted {i : Instr} {s m : State} (h : execute i s = .ok m) (hk : i.kind ≠ .halt) :
    m.halted = s.halted := by
  rcases execute_ok_cases h with ⟨n, -, -, rfl⟩ | ⟨r, -, rfl, -⟩ | ⟨hhalt, -⟩
  · rfl
  · rfl
  · exact absurd hhalt hk

@[simp] theorem Executed.map_ok (g : State → State) (m : State) : (Executed.ok m).map g = .ok (g m) := rfl

@[simp] theorem Executed.map_error (g : State → State) (e : ErrorKind) : (Executed.error e).map g = .error e := rfl

/-- An update of the state aside from the stack and `size`, which commutes with what Execute writes. -/
structure UpdatesAside (g : State → State) : Prop where
  stack (s : State) : (g s).stack = s.stack
  size (s : State) : (g s).size = s.size
  writeStack (s : State) (i : Nat) (v : Word) (n : BitVec 11) : (g s).writeStack i v n = g (s.writeStack i v n)
  withHalted (s : State) : { g s with halted := true } = g { s with halted := true }

/-- Execute after such an update is Execute before it, with the result updated: it neither reads nor writes what the
update touches. -/
theorem execute_updatesAside {g : State → State} (hg : UpdatesAside g) (i : Instr) (s : State) :
    execute i (g s) = (execute i s).map g := by
  have hslot (k : Nat) : (g s).slot k = s.slot k := by rw [State.slot, State.slot, hg.stack]
  have hfull : (g s).stackFull = s.stackFull := by rw [State.stackFull, State.stackFull, hg.size]
  have hshort : (g s).stackShort = s.stackShort := by rw [State.stackShort, State.stackShort, hg.size]
  have hleft : (g s).leftOperand = s.leftOperand := by
    rw [State.leftOperand, State.secondIndex, hg.size, hslot, State.leftOperand, State.secondIndex]
  have hright : (g s).rightOperand = s.rightOperand := by
    rw [State.rightOperand, State.topIndex, hg.size, hslot, State.rightOperand, State.topIndex]
  have hpushed (v : Word) : (g s).pushed v = g (s.pushed v) := by
    rw [State.pushed, State.freeIndex, hg.size, hg.writeStack, State.pushed, State.freeIndex]
  have hcombined (r : Word) : (g s).combined r = g (s.combined r) := by
    rw [State.combined, State.secondIndex, hg.size, hg.writeStack, State.combined, State.secondIndex]
  have hbinary (f : Word → Word → Word) : executeBinary f (g s) = (executeBinary f s).map g := by
    simp only [executeBinary, hshort, hleft, hright, hcombined, apply_ite (Executed.map g), Executed.map_ok,
      Executed.map_error]
  cases i with
  | push n =>
    simp only [execute, executePush, hfull, hpushed, apply_ite (Executed.map g), Executed.map_ok, Executed.map_error]
  | add _ => exact hbinary fAdd
  | sub _ => exact hbinary fSub
  | mul _ => exact hbinary fMul
  | div _ =>
    simp only [execute, executeDiv, executeDivision, hshort, hleft, hright, hcombined, apply_ite (Executed.map g),
      Executed.map_ok, Executed.map_error]
  | halt _ => exact congrArg Executed.ok (hg.withHalted s)
  | jump _ | unknown _ _ => rfl

/-- Settles O24: a success is a push, a combination or a halt, and each writes one slot or none; the registers of the
sequencer are neither read nor written. -/
theorem executeKeepsOutOfTheSequencer : Obligations.ExecuteKeepsOutOfTheSequencer := by
  intro i s
  refine ⟨fun m hx => ?_, fun p f e => ?_, fun _ => ?_⟩
  · obtain ⟨hip, hfaulted, herr⟩ := execute_sequencer_registers hx
    refine ⟨hip, hfaulted, herr, execute_sameHost hx, execute_halted hx, ?_⟩
    rcases execute_ok_cases hx with ⟨n, rfl, -, rfl⟩ | ⟨r, -, rfl, hk⟩ | ⟨hk, rfl⟩
    · exact fun _ hi => s.slot_pushed_other n hi
    · cases i with
      | add _ | sub _ | mul _ | div _ => exact fun _ hi => s.slot_combined_other r hi
      | push _ | jump _ | halt _ | unknown _ _ => simp [Instr.kind] at hk
    · cases i with
      | halt _ => exact ⟨rfl, rfl⟩
      | push _ | add _ | sub _ | mul _ | div _ | jump _ | unknown _ _ => simp [Instr.kind] at hk
  · exact execute_updatesAside (g := fun m => { m with ip := p, faulted := f, err := e })
      ⟨fun _ => rfl, fun _ => rfl, fun _ _ _ _ => rfl, fun _ => rfl⟩ i s
  · exact execute_updatesAside (g := fun m => { m with halted := true })
      ⟨fun _ => rfl, fun _ => rfl, fun _ _ _ _ => rfl, fun _ => rfl⟩ i s

/-- Settles O25: Halt writes the value that `halted` has. -/
theorem haltIsIdempotent : Obligations.HaltIsIdempotent := by
  intro n s hhalted
  have hsame : ({ s with halted := true } : State) = s := by rw [← hhalted]
  exact congrArg Executed.ok hsame

/-! ### Execute and the sequencer's end (R101) -/

/-- Settles O26: where the slots exist, a meaning is the sequencer's end of Execute. -/
theorem execIsExecuteThenTheSequencersEnd : Obligations.ExecIsExecuteThenTheSequencersEnd := by
  intro i s hle
  have hexec := exec_eq_retire (i := i) hle
  cases hx : execute i s with
  | ok m => exact .inl ⟨m, rfl, by rw [hexec, hx]; rfl⟩
  | error e => exact .inr ⟨e, rfl, by rw [hexec, hx]; rfl⟩

/-- Settles O18: the five meanings that reach the RAM check that its slots exist. -/
theorem noSlotBeyondTheRam : Obligations.NoSlotBeyondTheRam := fun _ _ h =>
  ⟨withSlots_of_gt h, withSlots_of_gt h, withSlots_of_gt h, withSlots_of_gt h, withSlots_of_gt h⟩

/-- Settles O40: the table of codes, row by row (60_exceptions.md R110, decision D8). -/
theorem causeCodes : Obligations.CauseCodes := ⟨rfl, rfl, rfl, rfl, rfl⟩

end Sys2Proof.Machine
end

section
/-! The stack as a value, before and after an instruction, and what the host sees of it (95_test_vectors.md S4,
60_exceptions.md R122 to R126). -/

namespace Sys2Proof.Machine

/-! ### `DumpValue` (60_exceptions.md R123, R124) -/

@[simp] theorem State.length_dumpValue (s : State) : s.dumpValue.length = s.size.toNat := by simp [State.dumpValue]

theorem State.getElem?_dumpValue {s : State} {i : Nat} (h : i < s.size.toNat) : s.dumpValue[i]? = some (s.slot i) := by
  simp [State.dumpValue, h]

/-- Settles O55: the length and the elements of the dump value. -/
theorem dumpValueIsTheLiveStack : Obligations.DumpValueIsTheLiveStack := fun s =>
  ⟨s.length_dumpValue, fun _ => State.getElem?_dumpValue⟩

/-- Where no Step happens `dbg_val` is the slot asked for. -/
theorem State.dbgVal_of_no_step {s : State}
    (h : s.pins.stepEn = false ∨ s.pins.rst = true ∨ s.halted = true ∨ s.faulted = true) (idx : BitVec 10) :
    s.dbgVal idx = s.slot idx.toNat := by
  have hno : s.stepHappens = false := by
    rcases h with h | h | h | h <;> simp [State.stepHappens, State.terminal, h]
  simp [State.dbgVal, hno]

/-- Settles O56: `dbg_live` is the comparison with `size`, and a live slot is an element of the dump value. -/
theorem observerPortGivesTheDump : Obligations.ObserverPortGivesTheDump := by
  intro s idx
  have hlive : (s.outputs idx).dbgLive = true ↔ idx.toNat < s.size.toNat := decide_eq_true_iff
  refine ⟨hlive, fun hno hl => ?_⟩
  calc s.dumpValue[idx.toNat]? = some (s.slot idx.toNat) := State.getElem?_dumpValue (hlive.mp hl)
    _ = some (s.outputs idx).dbgVal := congrArg some (State.dbgVal_of_no_step hno idx).symm

/-- Settles O57: the outputs are wired to the registers. -/
theorem statusOutputsAreTheRegisters : Obligations.StatusOutputsAreTheRegisters := fun _ _ =>
  ⟨rfl, rfl, rfl, rfl, rfl, rfl⟩

/-- Settles O58: the two texts, evaluated. -/
theorem dumpTextOfTheSourcesExamples : Obligations.DumpTextOfTheSourcesExamples := ⟨by decide, by decide⟩

/-- Settles O47: nothing has written the RAM, so each slot reads as its power-up word. -/
theorem resetValues : Obligations.ResetValues :=
  ⟨rfl, rfl, rfl, rfl, rfl, rfl, rfl, fun _ => rfl⟩

/-! ### What each instruction does to the stack as a value (95_test_vectors.md S4) -/

/-- The operands of a stack `[..., a, b]` are `a` and `b`. -/
theorem State.operands_of_dumpValue {s : State} {xs : List Word} {a b : Word} (h : s.dumpValue = xs ++ [a, b]) :
    s.size.toNat = xs.length + 2 ∧ s.leftOperand = a ∧ s.rightOperand = b := by
  have hsize : s.size.toNat = xs.length + 2 := by simpa using congrArg List.length h
  have hslot (k : Nat) (hk : k < s.size.toNat) : some (s.slot k) = (xs ++ [a, b])[k]? := by
    rw [← h, State.getElem?_dumpValue hk]
  have hleft := hslot xs.length (by omega)
  have hright := hslot (xs.length + 1) (by omega)
  refine ⟨hsize, ?_, ?_⟩
  · simpa [State.leftOperand, State.secondIndex, hsize] using hleft
  · simpa [State.rightOperand, State.topIndex, hsize] using hright

/-- A state that has `r` in place of the two topmost elements of `s` has the dump value `[..., r]`. -/
theorem State.Combines.dumpValue {s t : State} {xs : List Word} {a b r : Word} (h : State.Combines s t r)
    (hs : s.dumpValue = xs ++ [a, b]) : t.dumpValue = xs ++ [r] := by
  obtain ⟨hsize, -, -⟩ := State.operands_of_dumpValue hs
  obtain ⟨hshrinks, hresult, hother, -⟩ := h
  have htop : s.size.toNat - 2 = xs.length := by omega
  have htsize : t.size.toNat = xs.length + 1 := by omega
  have hbelow : (List.range xs.length).map t.slot = xs := calc
    (List.range xs.length).map t.slot = (List.range xs.length).map s.slot :=
      List.map_congr_left fun i hi => hother i (htop ▸ (List.mem_range.mp hi).ne)
    _ = s.dumpValue.take xs.length := by simp [State.dumpValue, ← List.map_take, List.take_range, hsize]
    _ = xs := by rw [hs, List.take_left]
  rw [State.dumpValue, htsize, List.range_succ, List.map_append, hbelow, List.map_singleton, ← htop, hresult]

/-- An instruction of the shape of Add, Sub and Mul on a stack `[..., a, b]`. -/
theorem exec_binary_dumpValue {i : Instr} {f : Word → Word → Word} {s : State} {xs : List Word} {a b r : Word}
    (hi : execute i s = executeBinary f s) (hle : s.size.toNat ≤ 1024) (hs : s.dumpValue = xs ++ [a, b])
    (hr : f a b = r) : ∃ t, exec i s = .next t ∧ t.dumpValue = xs ++ [r] := by
  obtain ⟨hsize, hleft, hright⟩ := State.operands_of_dumpValue hs
  obtain ⟨t, ht, hcombines⟩ := exec_binary_combines hi (by omega) hle
  rw [hleft, hright, hr] at hcombines
  exact ⟨t, ht, hcombines.dumpValue hs⟩

theorem exec_div_dumpValue (n : Word) {s : State} {xs : List Word} {a b : Word} (hle : s.size.toNat ≤ 1024)
    (hs : s.dumpValue = xs ++ [a, b]) (hb : b ≠ 0#64) :
    ∃ t, exec (.div n) s = .next t ∧ t.dumpValue = xs ++ [a.sdiv b] := by
  obtain ⟨hsize, hleft, hright⟩ := State.operands_of_dumpValue hs
  obtain ⟨t, ht, hcombines⟩ := exec_div_combines n (by omega) hle (hright ▸ hb)
  rw [hleft, hright, fDiv_eq_wrap64, wrap64_tdiv] at hcombines
  exact ⟨t, ht, hcombines.dumpValue hs⟩

theorem fSub_eq_sub (a b : Word) : fSub a b = a - b := by
  rw [fSub_eq, BitVec.add_assoc, ← BitVec.neg_eq_not_add, ← BitVec.sub_eq_add_neg]

theorem fMul_eq_mul (a b : Word) : fMul a b = a * b := by
  rw [fMul_eq]
  simp [BitVec.setWidth_mul]

/-- Settles O28: a push appends, the arithmetic instructions replace the last two elements by the result on words, and
Halt does not reach the stack. -/
theorem dumpValueAfterEachInstruction : Obligations.DumpValueAfterEachInstruction := fun s n _ a b hle =>
  ⟨fun hroom => ⟨(s.pushed n).advanceIp, exec_push_of_lt n hroom, State.dumpValue_pushed n hroom⟩,
    fun hs => ⟨exec_binary_dumpValue (f := fAdd) rfl hle hs (fAdd_eq a b),
      exec_binary_dumpValue (f := fSub) rfl hle hs (fSub_eq_sub a b),
      exec_binary_dumpValue (f := fMul) rfl hle hs (fMul_eq_mul a b), exec_div_dumpValue n hle hs⟩,
    ⟨_, exec_halt n s, rfl⟩⟩

/-- Settles O21: the one pair of R84 takes the branch of `fDiv` that names the configuration field. -/
theorem minByMinusOneGivesTheParameter : Obligations.MinByMinusOneGivesTheParameter := by
  intro n s h2 hle hleft hright
  have hne : s.rightOperand ≠ 0#64 := by
    rw [State.rightOperand, State.topIndex, hright]
    decide
  have hquotient : fDiv s.leftOperand s.rightOperand = Config.divMinByMinus1 := by
    rw [State.leftOperand, State.rightOperand, State.secondIndex, State.topIndex, hleft, hright]
    rfl
  exact ⟨rfl, hquotient ▸ exec_div_combines n h2 hle hne⟩

end Sys2Proof.Machine
end

section
/-! What a step runs, what it can change in `size`, `ip` and the control state, and the host's part in it
(43_fetch_execute.md, 10_state.md R18, R20, R25, 70_reset_and_hazards.md). -/

namespace Sys2Proof.Machine

/-! ### The instruction a step runs (43_fetch_execute.md R101) -/

/-- Settles O29: the step is the sequencer's end of Execute, and that is the meaning of the word. -/
theorem stepRunsTheDecodedInstruction : Obligations.StepRunsTheDecodedInstruction := by
  intro s w hdue hw
  obtain ⟨-, -, -, hadmitted, -⟩ := s.dueToStep_iff.mp hdue
  obtain ⟨hsize, -⟩ := s.admitted_iff.mp hadmitted
  calc step s = retire s.tick (execute (decode w) s.tick) := step_eq_retire hdue hw
    _ = exec (decode w) s.tick := (exec_eq_retire (s := s.tick) hsize).symm

/-! ### The word placed where the next step fetches (log entry 15) -/

theorem Program.getElem?_withWord (p : Program) (i : Nat) (w : InstrWord) : (Program.withWord p i w)[i]? = some w := by
  have hlength : (p.take i ++ List.replicate (i - p.length) 0#72).length = i := by
    rw [List.length_append, List.length_take, List.length_replicate]
    omega
  rw [Program.withWord, List.getElem?_append_right hlength.le, hlength, Nat.sub_self, List.getElem?_cons_zero]

theorem Program.length_withWord (p : Program) (i : Nat) (w : InstrWord) :
    (Program.withWord p i w).length = max (i + 1) p.length := by
  simp only [Program.withWord, List.length_append, List.length_take, List.length_replicate, List.length_cons,
    List.length_drop]
  omega

/-- The edge put before the host's moves is an enabled one, and it leaves those moves in store. -/
theorem State.placeWord_pins (s : State) (w : InstrWord) :
    (s.placeWord w).pins = HostInputs.free ∧ (s.placeWord w).inputs.tail = s.inputs := by
  rw [State.pins, State.placeWord_inputs, State.placeWord_idle]
  cases s.inputs with
  | nil => by_cases hfree : s.idle.toInputs = HostInputs.free <;> simp [enableNextEdge, hfree]
  | cons p ps => exact ⟨rfl, rfl⟩

/-- Where the registers are admitted and the program keeps its bound, the step after a word is placed is due. -/
theorem State.placeWord_dueToStep {s : State} (w : InstrWord) (hsize : s.size.toNat ≤ 1024)
    (hip : s.ip.toNat + 1 < 2 ^ 64) (hprog : s.prog.length < 2 ^ 64) : (s.placeWord w).dueToStep = true := by
  have hlength := Program.length_withWord s.prog s.ip.toNat w
  obtain ⟨hpins, -⟩ := s.placeWord_pins w
  refine (s.placeWord w).dueToStep_iff.mpr ⟨by rw [hpins]; rfl, by rw [hpins]; rfl, by rw [hpins]; rfl, ?_, rfl⟩
  refine (s.placeWord w).admitted_iff.mpr ⟨hsize, ?_, Nat.zero_le _, by simp, by simp, ?_⟩
  · rw [State.placeWord_ip, State.placeWord_prog]
    omega
  · rw [State.placeWord_prog]
    omega

/-- Settles O39: the step after the word is placed is due, and the word is the one at `ip`. -/
theorem placedWordIsRunNext : Obligations.PlacedWordIsRunNext := by
  intro s w hsize hip hprog
  have hplaced : s.withFetchWord 72 w = s.placeWord (BitVec.ofNat 72 w) := by
    have hword : tableWord 72 w = BitVec.ofNat 72 w := BitVec.eq_of_toNat_eq (by simp [tableWord])
    rw [State.withFetchWord, hword]
  have hword := Program.getElem?_withWord s.prog s.ip.toNat (BitVec.ofNat 72 w)
  obtain ⟨-, hinputs⟩ := s.placeWord_pins (BitVec.ofNat 72 w)
  have hdue := State.placeWord_dueToStep (BitVec.ofNat 72 w) hsize hip hprog
  rw [hplaced]
  exact ⟨_, stepRunsTheDecodedInstruction _ _ hdue hword, rfl, rfl, rfl, hinputs, rfl, hword⟩

/-! ### What a step without reset can have done to the registers -/

/-- An edge of a running machine that is enabled and answers a next state is a due step: the host has kept the program,
or the edge would be refused. -/
theorem dueToStep_of_step {s t : State} (hr : s.pins.rst = false) (he : s.pins.stepEn = true)
    (ht : s.terminal = false) (h : step s = .next t) : s.dueToStep = true := by
  rcases step_cases h with ⟨hrst, -⟩ | ⟨p, hrst, -⟩ | ⟨-, -, hhold, -⟩ | ⟨-, -, -, hend, -⟩ | ⟨-, hkeep, -, ha, -⟩ |
    ⟨w, -, hkeep, -, ha, -⟩
  case inl | inr.inl => simp [hr] at hrst
  case inr.inr.inl => simp [he] at hhold
  case inr.inr.inr.inl => simp [ht] at hend
  all_goals exact s.dueToStep_iff.mpr ⟨hr, hkeep, he, ha, ht⟩

/-- Everything a step without reset can have been: an edge that keeps the machine, a fetch out of range, or the word at
`ip` executed, with success or failure. -/
theorem step_cases_of_not_rst {s t : State} (hr : s.pins.rst = false) (h : step s = .next t) :
    ((s.terminal = true ∨ s.pins.stepEn = false) ∧ t = s.tick.supplied s.pins.newProg) ∨
    (s.dueToStep = true ∧ s.prog.length ≤ s.ip.toNat ∧ t = s.tick.takeFault .fetchOutOfRange) ∨
    ∃ w, s.dueToStep = true ∧ s.prog[s.ip.toNat]? = some w ∧
      ((∃ m, execute (decode w) s.tick = .ok m ∧ t = m.advanceIp) ∨
        ∃ e, execute (decode w) s.tick = .error e ∧ t = s.tick.takeFault (.execute e)) := by
  rcases step_cases h with ⟨hrst, -⟩ | ⟨p, hrst, -⟩ | ⟨-, -, he, rfl⟩ | ⟨-, -, -, ht, rfl⟩ |
    ⟨-, hkeep, he, ha, ht, hip, rfl⟩ | ⟨w, -, hkeep, he, ha, ht, hw, -⟩
  case inl | inr.inl => simp [hr] at hrst
  case inr.inr.inl => exact .inl ⟨.inr he, rfl⟩
  case inr.inr.inr.inl => exact .inl ⟨.inl ht, rfl⟩
  case inr.inr.inr.inr.inl => exact .inr (.inl ⟨s.dueToStep_iff.mpr ⟨hr, hkeep, he, ha, ht⟩, hip, rfl⟩)
  case inr.inr.inr.inr.inr =>
    have hdue := s.dueToStep_iff.mpr ⟨hr, hkeep, he, ha, ht⟩
    exact .inr (.inr ⟨w, hdue, hw, retire_next ((step_eq_retire hdue hw).symm.trans h)⟩)

/-- The kind numbers of the four arithmetic instructions (30_encoding.md R60). -/
theorem kindField_of_decode_arithmetic {w : InstrWord}
    (h : (decode w).kind = .add ∨ (decode w).kind = .sub ∨ (decode w).kind = .mul ∨ (decode w).kind = .div) :
    1 ≤ (kindField w).toNat ∧ (kindField w).toNat ≤ 4 := by
  rcases decode_cases w with ⟨-, hd⟩ | ⟨hk, -⟩ | ⟨hk, -⟩ | ⟨hk, -⟩ | ⟨hk, -⟩ | ⟨-, hd⟩ | ⟨-, hd⟩ | ⟨-, hd⟩
  case inr.inl | inr.inr.inl | inr.inr.inr.inl | inr.inr.inr.inr.inl =>
    rw [hk]
    decide
  all_goals simp [hd, Instr.kind] at h

/-- Settles O44: of the edges without reset only a successful Execute writes `size`, in a push or a combination. -/
theorem writersOfSize : Obligations.WritersOfSize := by
  intro s t hr h
  rcases step_cases_of_not_rst hr h with ⟨-, rfl⟩ | ⟨-, -, rfl⟩ | ⟨w, hdue, hw, ⟨m, hm, rfl⟩ | ⟨e, -, rfl⟩⟩
  case inr.inr.inl =>
    obtain ⟨-, -, -, hadmitted, -⟩ := s.dueToStep_iff.mp hdue
    obtain ⟨hle, -⟩ := s.admitted_iff.mp hadmitted
    rcases execute_ok_cases hm with ⟨n, hpush, hroom, rfl⟩ | ⟨r, h2, rfl, hk⟩ | ⟨-, rfl⟩
    · have hlt : s.size.toNat < 1024 := Nat.lt_of_le_of_ne hle hroom
      have hkind : kindField w = 0#8 := kindField_of_decode_kind_push (by rw [hpush]; rfl)
      exact .inr (.inl ⟨s.tick.size_pushed n hlt, hlt, w, hw, hkind⟩)
    · exact .inr (.inr ⟨s.tick.size_combined r h2, h2, w, hw, kindField_of_decode_arithmetic hk⟩)
    · exact .inl rfl
  all_goals exact .inl rfl

/-- Settles O45: of the edges without reset only a successful Execute is followed by an advance of `ip`. -/
theorem writersOfIp : Obligations.WritersOfIp := by
  intro s t hr h
  rcases step_cases_of_not_rst hr h with ⟨-, rfl⟩ | ⟨-, -, rfl⟩ | ⟨w, hdue, hw, ⟨m, hm, rfl⟩ | ⟨e, -, rfl⟩⟩
  case inr.inr.inl =>
    obtain ⟨-, hgrow, -⟩ := step_of_execute_ok hdue hw hm
    exact .inr ⟨hgrow, w, m, hw, hm⟩
  all_goals exact .inl rfl

/-! ### The control state (10_state.md R25) -/

theorem State.control_eq_faulted_iff (s : State) :
    s.control = some .faulted ↔ s.halted = false ∧ s.faulted = true := by
  cases hh : s.halted <;> cases hf : s.faulted <;> simp [State.control, hh, hf]

/-- Only the kind number 6 is a Halt (30_encoding.md R60). -/
theorem decode_kind_eq_halt_iff (w : InstrWord) : (decode w).kind = .halt ↔ kindField w = 6#8 := by
  rcases decode_cases w with ⟨hk, hd⟩ | ⟨hk, hd⟩ | ⟨hk, hd⟩ | ⟨hk, hd⟩ | ⟨hk, hd⟩ | ⟨hk, hd⟩ | ⟨hk, hd⟩ | ⟨hk, hd⟩
  case inr.inr.inr.inr.inr.inr.inr =>
    simp [hd, kindField_ne_of_unknown hk, Instr.kind]
  all_goals simp [hd, hk, Instr.kind]

theorem execute_of_kind_halt {i : Instr} (h : i.kind = .halt) (s : State) :
    execute i s = .ok { s with halted := true } := by
  cases i with
  | halt _ => rfl
  | push _ | add _ | sub _ | mul _ | div _ | jump _ | unknown _ _ => simp [Instr.kind] at h

/-- A due step leaves the machine Faulted where there is no word, and otherwise in the control state that the word's kind
and its Execute say. -/
theorem control_of_dueToStep {s t : State} (hdue : s.dueToStep = true) (h : step s = .next t) :
    (s.prog[s.ip.toNat]? = none ∧ t.control = some .faulted) ∨
    ∃ w, s.prog[s.ip.toNat]? = some w ∧
      ((∃ m, execute (decode w) s.tick = .ok m ∧ kindField w = 6#8 ∧ t.control = some .halted) ∨
        (∃ m, execute (decode w) s.tick = .ok m ∧ kindField w ≠ 6#8 ∧ t.control = some .running) ∨
        ∃ e, execute (decode w) s.tick = .error e ∧ kindField w ≠ 6#8 ∧ t.control = some .faulted) := by
  obtain ⟨hr, -, he, -, ht⟩ := s.dueToStep_iff.mp hdue
  obtain ⟨hhalted, hfaulted⟩ := s.terminal_eq_false_iff.mp ht
  rcases step_cases_of_not_rst hr h with ⟨hend, -⟩ | ⟨-, hip, rfl⟩ | ⟨w, -, hw, ⟨m, hm, rfl⟩ | ⟨e, hx, rfl⟩⟩
  · simp [ht, he] at hend
  · exact .inl ⟨List.getElem?_eq_none hip, (State.control_eq_faulted_iff _).mpr ⟨hhalted, rfl⟩⟩
  · obtain ⟨-, hmfaulted, -⟩ := execute_sequencer_registers hm
    refine .inr ⟨w, hw, ?_⟩
    by_cases hk : kindField w = 6#8
    · have hhalt := execute_of_kind_halt ((decode_kind_eq_halt_iff w).mpr hk) s.tick
      obtain rfl : m = { s.tick with halted := true } := Executed.ok.inj (hm.symm.trans hhalt)
      exact .inl ⟨_, hm, hk, (State.control_eq_halted_iff _).mpr ⟨rfl, hfaulted⟩⟩
    · have hmhalted := execute_halted hm fun hkind => hk ((decode_kind_eq_halt_iff w).mp hkind)
      exact .inr (.inl ⟨m, hm, hk,
        (State.control_eq_running_iff _).mpr ⟨hmhalted.trans hhalted, hmfaulted.trans hfaulted⟩⟩)
  · have hk : kindField w ≠ 6#8 := fun hk => by
      simp [execute_of_kind_halt ((decode_kind_eq_halt_iff w).mpr hk)] at hx
    exact .inr ⟨w, hw, .inr (.inr ⟨e, hx, hk, (State.control_eq_faulted_iff _).mpr ⟨hhalted, rfl⟩⟩)⟩

/-- The three successors of Running, each with the one condition under which a due step goes there. -/
theorem running_transitions {s t : State} (hdue : s.dueToStep = true) (h : step s = .next t) :
    (t.control = some .halted ↔ ∃ w, s.prog[s.ip.toNat]? = some w ∧ kindField w = 6#8) ∧
    (t.control = some .faulted ↔ s.prog.length ≤ s.ip.toNat ∨
      ∃ w e, s.prog[s.ip.toNat]? = some w ∧ execute (decode w) s.tick = .error e) ∧
    (t.control = some .running ↔ ∃ w m, s.prog[s.ip.toNat]? = some w ∧ kindField w ≠ 6#8 ∧
      execute (decode w) s.tick = .ok m) := by
  rw [← List.getElem?_eq_none_iff]
  rcases control_of_dueToStep hdue h with ⟨hw, hc⟩ | ⟨w, hw, ⟨m, hx, hk, hc⟩ | ⟨m, hx, hk, hc⟩ | ⟨e, hx, hk, hc⟩⟩
  · simp [hw, hc]
  all_goals simp [hw, hc, hx, hk]

theorem control_of_rst {s t : State} (hr : s.pins.rst = true) (h : step s = .next t) : t.control = some .running := by
  rcases step_cases h with ⟨-, -, rfl⟩ | ⟨p, -, -, -, rfl⟩ | ⟨hrst, -⟩ | ⟨hrst, -⟩ | ⟨hrst, -⟩ | ⟨w, hrst, -⟩
  case inl | inr.inl => rfl
  all_goals simp [hr] at hrst

/-- Without reset an edge that is no due step keeps the control state. -/
theorem control_of_hold {s t : State} (hr : s.pins.rst = false) (hhold : s.terminal = true ∨ s.pins.stepEn = false)
    (h : step s = .next t) : t.control = s.control := by
  have hnot : s.dueToStep ≠ true := fun hdue => by
    obtain ⟨-, -, he, -, ht⟩ := s.dueToStep_iff.mp hdue
    simp [ht, he] at hhold
  rcases step_cases_of_not_rst hr h with ⟨-, rfl⟩ | ⟨hdue, -⟩ | ⟨w, hdue, -⟩
  · rfl
  · exact absurd hdue hnot
  · exact absurd hdue hnot

/-- Settles O43: reset, the edges that keep the machine, and the due step of a Running one. -/
theorem controlStateTransitions : Obligations.ControlStateTransitions := by
  intro s t _ h
  refine ⟨fun hr => control_of_rst hr h, fun hr he => control_of_hold hr (.inr he) h, fun hr hc => ?_, fun hr hc => ?_,
    fun hr he hc => ?_⟩
  · obtain ⟨hhalted, -⟩ := s.control_eq_halted_iff.mp hc
    exact (control_of_hold hr (.inl (State.terminal_of_halted hhalted)) h).trans hc
  · obtain ⟨-, hfaulted⟩ := s.control_eq_faulted_iff.mp hc
    exact (control_of_hold hr (.inl (State.terminal_of_faulted hfaulted)) h).trans hc
  · have ht : s.terminal = false := s.terminal_eq_false_iff.mpr (s.control_eq_running_iff.mp hc)
    have hdue : s.dueToStep = true := dueToStep_of_step hr he ht h
    exact running_transitions hdue h

end Sys2Proof.Machine
end

section
/-! The host's changes of the program, what is refused, and a second reset (70_reset_and_hazards.md; log entries 8, 10
and 11). -/

namespace Sys2Proof.Machine

/-! ### Refusals (log entries 8, 10 and 11) -/

theorem step_of_rst_too_long {s : State} {p : Program} (hr : s.pins.rst = true)
    (hp : s.pins.newProg.or s.nextProg = some p) (hlong : 2 ^ 64 ≤ p.length) : step s = .refused .programTooLong := by
  have hf : p.fits = false := decide_eq_false (Nat.not_lt.mpr hlong)
  simp [step_of_rst hr, resetEdge, hp, hf]

theorem step_of_program_changed {s : State} {p : Program} (hr : s.pins.rst = false) (hp : s.pins.newProg = some p)
    (ht : s.terminal = false) : step s = .refused .programChanged := by
  have hbreaks : s.pins.breaksRun s.tick = true := by simp [HostInputs.breaksRun, hp, ht]
  simp [step, clockEdge, hr, hbreaks]

theorem step_of_not_admitted {s : State} (hen : s.pins.enables = true) (ha : s.admitted = false) :
    step s = .refused .notAdmitted := by
  obtain ⟨hr, hkeep, he⟩ := s.pins.enables_iff.mp hen
  simp [step, clockEdge, HostInputs.breaksRun, hr, hkeep, he, ha]

/-- Settles O36: each clause is one kind of edge. -/
theorem programChangesOnlyAtReset : Obligations.ProgramChangesOnlyAtReset := by
  intro s p
  refine ⟨fun hr hp hfits => ⟨_, step_of_rst_new_program hr hp hfits, rfl, rfl, rfl, rfl⟩,
    step_of_rst_too_long, fun hr hp ha ht => ?_, step_of_program_changed⟩
  rw [step_of_terminal hr ha ht, hp]
  rfl

/-- Settles O37: each of the disjuncts denies one part of what an admitted state is. -/
theorem statesOutsideTheAdmittedAreRefused : Obligations.StatesOutsideTheAdmittedAreRefused := by
  intro s hen hout
  refine step_of_not_admitted hen (Bool.eq_false_iff.mpr fun ha => ?_)
  obtain ⟨hsize, hip, hcode, herr, hflags, hfits⟩ := s.admitted_iff.mp ha
  rcases hout with h | h | h | ⟨h0, hf⟩ | ⟨h0, hf⟩ | h | h
  · omega
  · omega
  · omega
  · exact absurd (herr.mp h0) (by simp [hf])
  · exact h0 (herr.mpr hf)
  · exact hflags h
  · omega

/-! ### Two resets (R132) -/

/-- A reset edge leaves a cleared state behind which no program waits. -/
theorem clear_of_rst {s t : State} (hr : s.pins.rst = true) (h : step s = .next t) :
    t.clear = t ∧ t.nextProg = none := by
  rcases step_cases h with ⟨-, hnone, rfl⟩ | ⟨p, -, -, -, rfl⟩ | ⟨hrst, -⟩ | ⟨hrst, -⟩ | ⟨hrst, -⟩ | ⟨w, hrst, -⟩
  case inl => exact ⟨rfl, (Option.or_eq_none_iff.mp hnone).2⟩
  case inr.inl => exact ⟨rfl, rfl⟩
  all_goals simp [hr] at hrst

/-- Settles O38: the second reset clears a state that is clear, and finds no program to load. -/
theorem twoResetsEqualOne : Obligations.TwoResetsEqualOne := by
  intro s t hr h hr' hkeep
  obtain ⟨hclear, hnone⟩ := clear_of_rst hr h
  refine ⟨hnone, ?_⟩
  calc step t = .next t.clear.tick := step_of_rst_same_program hr' (by rw [hkeep, hnone]; rfl)
    _ = .next t.tick := by rw [hclear]

end Sys2Proof.Machine
end

section
/-! Whole runs: their end, what stays after it, and a host that holds for ever (43_fetch_execute.md R105 to R108,
70_reset_and_hazards.md R132, R142). -/

namespace Sys2Proof.Machine

/-! ### After the end of a run (R105, R107) -/

/-- Without reset a terminal machine keeps its result and its RAM over any number of edges. -/
theorem run_of_terminal {k : Nat} {s : State} (ha : s.admitted = true) (ht : s.terminal = true)
    (hr : ∀ j, j < k → (s.pinsAt j).rst = false) :
    ∃ t, Sys2Proof.core.run k s = .next t ∧ t.result = s.result ∧ t.stack = s.stack := by
  induction k generalizing s with
  | zero => exact ⟨s, rfl, rfl, rfl⟩
  | succ k ih =>
    have hfirst : s.pins.rst = false := by simpa using hr 0 k.succ_pos
    have hstep := step_of_terminal hfirst ha ht
    obtain ⟨t, hrun, hresult, hstack⟩ := ih (s := s.tick.supplied s.pins.newProg) ha ht fun j hj => by
      rw [pinsAt_of_step hstep]
      exact hr (j + 1) (Nat.succ_lt_succ hj)
    exact ⟨t, (run_succ_of_next hstep).trans hrun, hresult, hstack⟩

/-- Settles O52: the invariant gives what a terminal machine's run needs, that the state is admitted. -/
theorem endedRunsKeepTheirResult : Obligations.EndedRunsKeepTheirResult := fun _ _ hinv ht hr =>
  run_of_terminal hinv.admitted ht hr

/-! ### The end of every run (R108, R142) -/

theorem HostInputs.keepsRun_iff (p : HostInputs) : p.keepsRun = true ↔ p.rst = false ∧ p.newProg = none := by
  simp [HostInputs.keepsRun]

/-- How the next edge brings the end nearer, where the host neither resets nor changes the program: a run that has ended
stays so; one that is held keeps `ip` and the program; one that is stepped ends, or advances past a word. -/
theorem step_progress {s t : State} (hkeeps : s.pins.keepsRun = true) (h : step s = .next t) :
    t.terminal = true ∨
    (s.terminal = false ∧
      t.prog.length - t.ip.toNat + (if s.pins.stepEn then 1 else 0) ≤ s.prog.length - s.ip.toNat) := by
  obtain ⟨hr, -⟩ := s.pins.keepsRun_iff.mp hkeeps
  rcases step_cases_of_not_rst hr h with ⟨hend, rfl⟩ | ⟨-, -, rfl⟩ | ⟨w, hdue, hw, ⟨m, hm, rfl⟩ | ⟨e, -, rfl⟩⟩
  · cases ht : s.terminal with
    | true => exact .inl ht
    | false =>
      have he : s.pins.stepEn = false := hend.resolve_left (by simp [ht])
      exact .inr ⟨rfl, by simp [he]⟩
  · exact .inl (State.terminal_of_faulted rfl)
  · obtain ⟨-, -, he, -, ht⟩ := s.dueToStep_iff.mp hdue
    obtain ⟨-, hgrow, -⟩ := step_of_execute_ok hdue hw hm
    obtain ⟨hlt, -⟩ := List.getElem?_eq_some_iff.mp hw
    refine .inr ⟨ht, ?_⟩
    rw [hgrow, State.advanceIp_prog, execute_prog hm, State.tick_prog, if_pos he]
    omega
  · exact .inl (State.terminal_of_faulted rfl)

/-- From a state whose run has ended, or whose remaining edges suffice, the run has ended after these edges. -/
theorem run_ends {n : Nat} {s : State} (hinv : s.Inv) (hkeeps : ∀ k, k < n → (s.pinsAt k).keepsRun = true)
    (henough : s.terminal = true ∨ s.prog.length - s.ip.toNat + 1 ≤ s.enabledEdges n) :
    ∃ t, Sys2Proof.core.run n s = .next t ∧ t.terminal = true := by
  induction n generalizing s with
  | zero => exact ⟨s, rfl, henough.resolve_right (by simp)⟩
  | succ n ih =>
    have hfirst : s.pins.keepsRun = true := by simpa using hkeeps 0 n.succ_pos
    obtain ⟨hr, hkeep⟩ := s.pins.keepsRun_iff.mp hfirst
    obtain ⟨u, hu⟩ := admittedStatesAlwaysStep s hinv (fun hrst => by simp [hr] at hrst) (fun _ _ => hkeep)
    have hpins := pinsAt_of_step hu
    have hedges : u.enabledEdges n = s.tick.enabledEdges n := by
      simp only [State.enabledEdges, hpins, State.pinsAt_tick]
    have hrest : u.terminal = true ∨ u.prog.length - u.ip.toNat + 1 ≤ u.enabledEdges n := by
      rcases step_progress hfirst hu with hend | ⟨ht, hnearer⟩
      · exact .inl hend
      · have hcount := henough.resolve_left (by simp [ht])
        rw [State.enabledEdges_succ, ← hedges] at hcount
        exact .inr (by omega)
    obtain ⟨t, hrun, hend⟩ := ih (everyStepKeepsTheInvariant s u hinv hu)
      (fun k hk => hpins k ▸ hkeeps (k + 1) (Nat.succ_lt_succ hk)) hrest
    exact ⟨t, (run_succ_of_next hu).trans hrun, hend⟩

/-- Settles O51: each enabled edge ends the run or takes one of the words that are left. -/
theorem everyRunEnds : Obligations.EveryRunEnds := fun _ _ hinv hkeeps henough =>
  run_ends hinv hkeeps (.inr henough)

/-! ### A host that holds for ever (R132, R142) -/

theorem run_of_fixed {s : State} (h : step s = .next s) (k : Nat) : Sys2Proof.core.run k s = .next s := by
  induction k with
  | zero => rfl
  | succ k ih => exact (run_succ_of_next h).trans ih

/-- Where the host has no move left, an edge uses none up. -/
theorem State.tick_of_no_moves {s : State} (h : s.inputs = []) : s.tick = s := by
  cases s
  cases h
  rfl

/-- A host with no move left that has left `rst` high clears the machine at the next edge. -/
theorem step_of_rst_left_high {s : State} (hmoves : s.inputs = []) (hrst : s.idle.rst = true)
    (hnone : s.nextProg = none) : step s = .next s.clear := by
  have hpins := State.pins_of_no_moves hmoves
  rw [step_of_rst_same_program (by rw [hpins]; exact hrst) (by rw [hpins, hnone]; rfl), State.tick_of_no_moves hmoves]

/-- Settles O59: a held state is a fixed point of the step, and so is a state that has been reset. -/
theorem heldForEverNeverMoves : Obligations.HeldForEverNeverMoves := by
  intro k s hmoves
  have hpins := State.pins_of_no_moves hmoves
  refine ⟨fun hrst hen => run_of_fixed ?_ k, fun hrst hnone => ?_⟩
  · have hhold := step_of_stepEn_false (s := s) (hpins ▸ hrst) (hpins ▸ hen) (fun _ => by rw [hpins]; rfl)
    rw [hhold, hpins]
    exact congrArg _ (State.tick_of_no_moves hmoves)
  · have hfixed : step s.clear = .next s.clear := step_of_rst_left_high hmoves hrst hnone
    exact (run_succ_of_next (step_of_rst_left_high hmoves hrst hnone)).trans (run_of_fixed hfixed k)

end Sys2Proof.Machine
end
